-- ==== Sys2Proof/Word.lean ====
section
/-! DEFINITION. The two widths of DSF-CORE: the byte of the four memories and the 32-bit register word
(spec/00_scope.md R4, R6). Every quantity of this hardware is unsigned. -/

namespace Sys2Proof

/-- An 8-bit value, the unit of every memory space (R6, R26). -/
abbrev Byte := BitVec 8

/-- The 32-bit register and command word (R4, R9, R40). -/
abbrev Word := BitVec 32

end Sys2Proof
end

