-- ==== Sys2Proof/Config.lean ====
section
/-! DEFINITION. What one implementation of DSF-CORE fixes: the fixed constants of the wire format, the four
memory sizes (open parameters of the spec, R4 and R23), and the one free value of the spec, the contents of a
byte that nothing has written since reset (R24, U6). -/

namespace Sys2Proof

/-- The four byte memories, each an address space of its own (R21, R26). -/
inductive Space where
  | pix
  | msg
  | key
  | out
  deriving DecidableEq, Repr

/-- The OPEN parameters of R4: the sizes of the four memories, in bytes. -/
structure Params where
  pixBytes : Nat
  msgBytes : Nat
  keyBytes : Nat
  outBytes : Nat
  deriving DecidableEq, Repr

/-- The number of offsets of a memory space (R26): offsets run from 0 to this number less one. -/
def Params.size (p : Params) : Space → Nat
  | .pix => p.pixBytes
  | .msg => p.msgBytes
  | .key => p.keyBytes
  | .out => p.outBytes

/-- `MAXDEC` of R4: the most message bytes a DECODE from a pixel memory of this size can produce. -/
def Params.maxDec (p : Params) : Nat :=
  if 32 ≤ p.pixBytes / 4 then (p.pixBytes / 4 - 32) / 8 else 0

namespace Config

/-- `HDR_BITS` (R4). -/
abbrev hdrBits : Nat := 32

/-- `REP`, the repetition factor (R4). -/
abbrev rep : Nat := 3

/-- `UNIT_BITS`, the bits of a body code unit (R4). -/
abbrev unitBits : Nat := 8

/-- `PIXEL_BYTES` (R4). -/
abbrev pixelBytes : Nat := 4

/-- `CHANNELS`, the usable channels of a pixel (R4). -/
abbrev channels : Nat := 3

/-- `CODED_HDR_BITS` (R4). -/
abbrev codedHdrBits : Nat := 96

/-- `ALPHA_OPAQUE` (R4). -/
abbrev alphaOpaque : Byte := 255#8

/-- The LSB clear mask `0xFE` (R4). -/
abbrev lsbClear : Byte := 0xFE#8

/-- DESIGN CHOICE (notes/assumptions/1.md): the sizes the machine of `State.reset` has. They are the sizes of the
spec's own programs (spec/95_test_vectors.md, Part 3). R4 leaves them open, so no statement rests on them. -/
def resetParams : Params := ⟨1024, 16, 16, 28⟩

/-- The free value of U6 (notes/assumptions/2.md): what the byte at an offset of a space holds after the `draw`-th
reset, until something writes it. It has no body, so nothing can be proved of its value. -/
opaque unwrittenByte (draw : Nat) (sp : Space) (offset : Nat) : Byte

end Config

end Sys2Proof
end

