-- ==== Sys2Proof/Syntax.lean ====
section
/-! DEFINITION. The command set (spec/30_encoding.md R40 to R43, spec/opcode_table.json): three commands with
implicit operands, and the two fields of the command word that names one. -/

namespace Sys2Proof

/-- The commands of R41, one constructor per row of spec/opcode_table.json. No command has an operand field:
every operand is implicit (R43). -/
inductive Instr where
  /-- CIPHER, opcode 0x01 (R53). -/
  | cipher
  /-- ENCODE, opcode 0x02 (R72). -/
  | encode
  /-- DECODE, opcode 0x03 (R73). -/
  | decode
  deriving DecidableEq, Repr

/-- The two fields of the command format `CMDW` (R40): `ZERO`, bits 31 to 8, and `OP`, bits 7 to 0. -/
structure CommandWord where
  zero : BitVec 24
  op   : BitVec 8
  deriving DecidableEq, Repr

end Sys2Proof
end

