-- ==== Sys2Proof/WellFormed.lean ====
section
/-! DEFINITION. The checks on what is given to the machine from outside: a command word (R40 to R42), a command,
and the memory sizes of an implementation (R4). -/

namespace Sys2Proof

/-- The `ZERO` field of a legal command word is 0 (R40, R42). -/
def CommandWord.zeroOk (c : CommandWord) : Bool := c.zero == 0#24

/-- The `OP` field of a legal command word is one of the three assigned opcodes (R41, R42). -/
def CommandWord.opOk (c : CommandWord) : Bool := c.op == 0x01#8 || c.op == 0x02#8 || c.op == 0x03#8

/-- A command word that is not illegal (R42). -/
def CommandWord.wf (c : CommandWord) : Bool := c.zeroOk && c.opOk

/-- A command has no operand, so each one is well-formed (R40: no register fields, immediates or mode bits). -/
def Instr.wf : Instr → Bool
  | .cipher => true
  | .encode => true
  | .decode => true

/-- `0 <= PIX_BYTES <= 4*(2^16-1)^2` (R4). -/
def Params.pixOk (p : Params) : Bool := p.pixBytes ≤ 4 * (2 ^ 16 - 1) ^ 2

/-- `0 <= MSG_BYTES <= 2^32-1` (R4). -/
def Params.msgOk (p : Params) : Bool := p.msgBytes ≤ 2 ^ 32 - 1

/-- `0 <= KEY_BYTES <= 2^32-1` (R4). -/
def Params.keyOk (p : Params) : Bool := p.keyBytes ≤ 2 ^ 32 - 1

/-- `MSG_BYTES <= OUT_BYTES <= 2^32-1` and `OUT_BYTES >= MAXDEC` (R4). -/
def Params.outOk (p : Params) : Bool :=
  p.msgBytes ≤ p.outBytes && p.outBytes ≤ 2 ^ 32 - 1 && p.maxDec ≤ p.outBytes

/-- The constraints R4 puts on the four memory sizes. -/
def Params.wf (p : Params) : Bool := p.pixOk && p.msgOk && p.keyOk && p.outOk

end Sys2Proof
end

