-- ==== Sys2Proof/Decode.lean ====
section
/-! DEFINITION. The decoder of the command word (R40 to R42), total on every 32-bit word and rejecting by name, and
after it the encoder, written from the same table of R41. -/

namespace Sys2Proof

/-- Why a command word is illegal (R42). Each of the two makes the command end with IllegalCommand (R76). -/
inductive DecodeError where
  /-- `w[31:8] != 0`. -/
  | zeroFieldNotZero
  /-- `w[31:8] = 0` and `w[7:0]` is not an assigned opcode. -/
  | unassignedOpcode
  deriving DecidableEq, Repr

/-- The two fields of a command word (R40). -/
def CommandWord.ofWord (w : Word) : CommandWord := ⟨w.extractLsb' 8 24, w.extractLsb' 0 8⟩

/-- The command word with these two fields (R40). -/
def CommandWord.toWord (c : CommandWord) : Word := c.zero ++ c.op

/-- The decoder of R41 on the two fields. -/
def decodeFields (c : CommandWord) : Except DecodeError Instr :=
  if c.zero ≠ 0#24 then .error .zeroFieldNotZero
  else if c.op = 0x01#8 then .ok .cipher
  else if c.op = 0x02#8 then .ok .encode
  else if c.op = 0x03#8 then .ok .decode
  else .error .unassignedOpcode

/-- The decoder of R41. -/
def decode (w : Word) : Except DecodeError Instr := decodeFields (CommandWord.ofWord w)

/-- The instruction the decoder reads from a word numbered as spec/opcode_table.json numbers it. A command is one
32-bit word whatever it is (R42), and the register it is written to has no byte order (R30,
notes/assumptions/6.md). -/
def decodeTableWord (nbits w : Nat) : Option Instr :=
  (decode (BitVec.ofNat 32 (w % 2 ^ nbits))).toOption

/-- The `OP` field of a command (R41). -/
def Instr.opcode : Instr → BitVec 8
  | .cipher => 0x01#8
  | .encode => 0x02#8
  | .decode => 0x03#8

/-- The one word of a command (R40, R41). -/
def encode (i : Instr) : Word := CommandWord.toWord ⟨0#24, i.opcode⟩

/-- One row of R41's table: the command, its match and its mask. -/
structure OpcodeRow where
  instr : Instr
  value : Word
  mask  : Word
  deriving DecidableEq, Repr

/-- R41's table. "A word `w` selects a row iff `(w & mask) == match`." -/
def opcodeTable : List OpcodeRow :=
  [⟨.cipher, 0x00000001#32, 0xFFFFFFFF#32⟩,
   ⟨.encode, 0x00000002#32, 0xFFFFFFFF#32⟩,
   ⟨.decode, 0x00000003#32, 0xFFFFFFFF#32⟩]

/-- A word selects a row of the opcode table (R41). -/
def OpcodeRow.selects (r : OpcodeRow) (w : Word) : Bool := w &&& r.mask == r.value

end Sys2Proof
end

