-- ==== Sys2Proof/Machine/State.lean ====
section
/-! DEFINITION. The state of DSF-CORE as plain data: the seven stored control registers (R9 to R17; CMD holds
nothing, R10), the four byte memories (R21), and the model's own fields: the memory sizes (R23), the number of the
reset whose unspecified contents are in the memories (R24), and the host agent (R8) as the list of accesses it
will make and the list of values it has read. -/

namespace Sys2Proof.Machine

/-- The failure classes of R77. `imageLoadFailure` belongs to the boundary: the core never raises it (R87). -/
inductive Failure where
  | insufficientCapacity
  | corruptHeader
  | truncatedExtraction
  | imageLoadFailure
  | illegalCommand
  | badConfig
  deriving DecidableEq, Repr

/-- The outcome of the last command, as STATUS.CODE names it (R11, R44; U9 allows the seven-value enumeration). -/
inductive Status where
  | ok
  | failed (f : Failure)
  deriving DecidableEq, Repr

/-- A byte memory: the bytes written since the last reset, as pairs of offset and byte with offsets strictly rising
(`Memory.wf`). An offset that is not listed has not been written: it holds the free value of
`Config.unwrittenByte` (U6). -/
abbrev Memory := List Host.Cell

/-- One step of the host, or of the platform (R8, R35, R89): one register access, one byte access, or a reset.
A register access carries its size in bytes and its byte offset in `REG`, so that the accesses R25 rules out can be
made as well. -/
inductive Access where
  | writeReg (size offset : Nat) (v : Word)
  | readReg (size offset : Nat)
  | storeByte (sp : Space) (offset : Nat) (v : Byte)
  | loadByte (sp : Space) (offset : Nat)
  | reset
  deriving DecidableEq, Repr

/-- What a read returned to the host. -/
inductive Reply where
  | word (v : Word)
  | byte (v : Byte)
  deriving DecidableEq, Repr

/-- The whole state. `status` to `corrected` are the registers of R9, `pix` to `out` the memories of R21. The last
four fields are the model's own: `params` never changes, `draw` counts resets, `pending` is what the host will do
next (oldest first), and `replies` is what the host has read (newest first). -/
structure State where
  status    : Status
  width     : BitVec 16
  height    : BitVec 16
  mlen      : Word
  klen      : Word
  olen      : Word
  corrected : Word
  pix       : Memory
  msg       : Memory
  key       : Memory
  out       : Memory
  params    : Params
  draw      : Nat
  pending   : List Access
  replies   : List Reply
  deriving DecidableEq, Repr

/-- Why a step stops with a fault. -/
inductive Fault where
  /-- Raised by `step` alone, when the host loads or stores a byte at an offset that is at or beyond the size of the
  space: "such an offset is not an address of the space; the host step does not exist" (U14). No command raises it.
  Safe: the machine stops where the spec has no transition. -/
  | noSuchOffset (sp : Space) (offset : Nat)
  deriving DecidableEq, Repr

/-- Why a step is refused. -/
inductive Refusal where
  /-- Raised by an arm of `exec` for an instruction without a meaning; no arm of this model raises it, since all three
  commands are modelled. Safe: the machine stops. -/
  | notModelled (mnemonic : String)
  deriving DecidableEq, Repr

/-- The state right after a reset of a machine with these memory sizes (R24, R89): every register 0, no byte of any
memory written since, the core idle. -/
def State.initial (p : Params) : State where
  status := .ok
  width := 0
  height := 0
  mlen := 0
  klen := 0
  olen := 0
  corrected := 0
  pix := []
  msg := []
  key := []
  out := []
  params := p
  draw := 0
  pending := []
  replies := []

/-- The machine right after reset (R24), with the memory sizes of notes/assumptions/1.md. -/
def State.reset : State := State.initial Config.resetParams

end Sys2Proof.Machine
end

