-- ==== Sys2Proof/Machine/Flags.lean ====
section
/-! DEFINITION. The condition state of the hardware (R20): the numbers of the status codes and the STATUS word as the
host reads it. There are no arithmetic flags. -/

namespace Sys2Proof.Machine

/-- The code of a failure class (R44, R77). -/
def Failure.code : Failure → BitVec 4
  | .insufficientCapacity => 1#4
  | .corruptHeader => 2#4
  | .truncatedExtraction => 3#4
  | .imageLoadFailure => 4#4
  | .illegalCommand => 5#4
  | .badConfig => 6#4

/-- STATUS.CODE (R11, R44). -/
def Status.code : Status → BitVec 4
  | .ok => 0#4
  | .failed f => f.code

/-- The STATUS register as the host reads it: CODE in bits 3 to 0, bits 31 to 4 hardwired 0 (R11). -/
def Status.word (st : Status) : Word := st.code.zeroExtend 32

end Sys2Proof.Machine
end

