-- ==== Sys2Proof/Machine/Ops.lean ====
section
/-! DEFINITION. The named operations over memory and registers: one byte of one memory (R7, R26), the ending of a
failed command (R81), the ending of a successful one, the host's register accesses (R9 to R17, R25), and the platform's
reset (R89). There is no return from a failure: nothing is saved and nothing is restored (R83). -/

namespace Sys2Proof.Machine

/-- The byte listed at an offset, if one is. -/
def Memory.get? : Memory → Nat → Option Byte
  | [], _ => none
  | (k, v) :: m, a => if a = k then some v else Memory.get? m a

/-- The memory with a byte written, its offsets kept strictly rising. -/
def Memory.put : Memory → Nat → Byte → Memory
  | [], a, v => [(a, v)]
  | (k, x) :: m, a, v =>
    if a < k then (a, v) :: (k, x) :: m
    else if a = k then (a, v) :: m
    else (k, x) :: Memory.put m a v

/-- The canonical form of a memory: offsets strictly rising. An unlisted offset is an unwritten one (`get?` answers
`none`), so no listed entry can equal what an unlisted offset gives. -/
abbrev Memory.wf (m : Memory) : Prop := m.Pairwise (fun c d => c.1 < d.1)

/-- The memory of a space. -/
def State.mem (s : State) : Space → Memory
  | .pix => s.pix
  | .msg => s.msg
  | .key => s.key
  | .out => s.out

/-- The state with the memory of a space replaced. -/
def State.setMem (s : State) (sp : Space) (m : Memory) : State :=
  match sp with
  | .pix => { s with pix := m }
  | .msg => { s with msg := m }
  | .key => { s with key := m }
  | .out => { s with out := m }

/-- `MemRead(S:a, 1)` (R7): the byte last written there, or the free value of U6 where nothing has written since the
last reset. -/
def memRead (s : State) (sp : Space) (a : Nat) : Byte :=
  ((s.mem sp).get? a).getD (Config.unwrittenByte s.draw sp a)

/-- `MemWrite(S:a, 1, v)` (R7). -/
def memWrite (s : State) (sp : Space) (a : Nat) (v : Byte) : State :=
  s.setMem sp ((s.mem sp).put a v)

/-- The bytes of a space from offset 0 up to but not including `n`. -/
def readBytes (s : State) (sp : Space) (n : Nat) : List Byte :=
  (List.range n).map (memRead s sp)

/-- Writes a byte sequence to a space, its first byte at offset `a` and the rest above it, in order. -/
def writeBytes (sp : Space) : Nat → List Byte → State → State
  | _, [], s => s
  | a, b :: bs, s => writeBytes sp (a + 1) bs (memWrite s sp a b)

/-- The whole effect of `raise F` (R81): the failure's code in STATUS, 0 in OLEN and CORRECTED, nothing else. This is
the hardware's one form of exception entry: no vector, no saved context, no mode (R81, R83). -/
def raise (f : Failure) (s : State) : State :=
  { s with status := .failed f, olen := 0, corrected := 0 }

/-- The success ending of a command (R71): STATUS = 0 together with the command's OLEN and CORRECTED. -/
def succeed (olen corrected : Nat) (s : State) : State :=
  { s with status := .ok, olen := BitVec.ofNat 32 olen, corrected := BitVec.ofNat 32 corrected }

/-- How a command ends (R71): by its success ending or by `raise`, applied to the state before the command, never
both. -/
def endCommand (s : State) : Except Failure State → Host.Outcome State Fault Refusal
  | .ok t => .next t
  | .error f => .next (raise f s)

/-- The eight control registers (R9). -/
inductive Reg where
  | cmd
  | status
  | width
  | height
  | mlen
  | klen
  | olen
  | corrected
  deriving DecidableEq, Repr

/-- The byte offset of a register in `REG` (R9). -/
def Reg.offset : Reg → Nat
  | .cmd => 0x00
  | .status => 0x04
  | .width => 0x08
  | .height => 0x0C
  | .mlen => 0x10
  | .klen => 0x14
  | .olen => 0x18
  | .corrected => 0x1C

/-- The register a host access of `size` bytes at byte offset `offset` reaches: only a whole aligned 32-bit word at an
offset of R9's table reaches one (R9, R25). -/
def regAt (size offset : Nat) : Option Reg :=
  if size = 4 then
    match offset with
    | 0x00 => some .cmd
    | 0x04 => some .status
    | 0x08 => some .width
    | 0x0C => some .height
    | 0x10 => some .mlen
    | 0x14 => some .klen
    | 0x18 => some .olen
    | 0x1C => some .corrected
    | _ => none
  else none

/-- `x[NAME]`, and what a host read of the register returns (R7, R9): CMD reads 0 (R10), the upper halves of WIDTH and
HEIGHT and bits 31 to 4 of STATUS are hardwired 0 (R11 to R13). -/
def regRead (s : State) : Reg → Word
  | .cmd => 0
  | .status => s.status.word
  | .width => s.width.zeroExtend 32
  | .height => s.height.zeroExtend 32
  | .mlen => s.mlen
  | .klen => s.klen
  | .olen => s.olen
  | .corrected => s.corrected

/-- What a host write of `v` stores in a register. WIDTH and HEIGHT keep bits 15 to 0 (R12, R13), the read-only
registers ignore the write (R9), and CMD stores nothing: starting the command is `step`'s part (R10). -/
def regWrite (s : State) (v : Word) : Reg → State
  | .cmd => s
  | .status => s
  | .width => { s with width := v.setWidth 16 }
  | .height => { s with height := v.setWidth 16 }
  | .mlen => { s with mlen := v }
  | .klen => { s with klen := v }
  | .olen => s
  | .corrected => s

/-- A host read of `size` bytes at an offset of `REG`: outside the register file it returns 0 (R25). -/
def hostRegRead (s : State) (size offset : Nat) : Word :=
  match regAt size offset with
  | some r => regRead s r
  | none => 0

/-- A host write at an offset of `REG` that is not a command: outside the register file it is ignored (R25). -/
def hostRegWrite (s : State) (size offset : Nat) (v : Word) : State :=
  match regAt size offset with
  | some r => regWrite s v r
  | none => s

/-- The host has read a value. Nothing of the hardware changes: no read has a side effect (R32). -/
def reply (r : Reply) (s : State) : State := { s with replies := r :: s.replies }

/-- The platform's reset (R89): every register 0, the contents of the four memories unspecified again, which is a new
draw of the free values. The host agent and the memory sizes are not the hardware's to reset. -/
def platformReset (s : State) : State :=
  { State.initial s.params with draw := s.draw + 1, pending := s.pending, replies := s.replies }

end Sys2Proof.Machine
end

