-- ==== Sys2Proof/Machine/Operands.lean ====
section
/-! DEFINITION. The implicit operands of the commands (R43): the pixel count and the capacity (R18), the message and
the key (R14, R15), and the admissibility of the extents the registers name (R39). -/

namespace Sys2Proof.Machine

/-- `NPIX = x[WIDTH] * x[HEIGHT]`, a natural number, without wrap-around (R18). -/
def npix (s : State) : Nat := s.width.toNat * s.height.toNat

/-- The number of the pixel at a column and a row, row-major (R27). The commands use pixel numbers only. -/
def pixelIndex (s : State) (column row : Nat) : Nat := row * s.width.toNat + column

/-- CAPACITY (R64): `CAP = 3 * NPIX`, in bits, as an unbounded natural number. -/
def cap (s : State) : Nat := Config.channels * npix s

/-- The input message, `MSG[0 .. x[MLEN])` (R14, R43). -/
def message (s : State) : List Byte := readBytes s .msg s.mlen.toNat

/-- The key, `KEY[0 .. x[KLEN])` (R15, R43). -/
def keyBytes (s : State) : List Byte := readBytes s .key s.klen.toNat

/-- `Fits(CIPHER)` (R39). -/
def fitsCipher (s : State) : Bool :=
  s.mlen.toNat ≤ s.params.msgBytes && s.mlen.toNat ≤ s.params.outBytes && s.klen.toNat ≤ s.params.keyBytes

/-- `Fits(ENCODE)` (R39). -/
def fitsEncode (s : State) : Bool :=
  s.mlen.toNat ≤ s.params.msgBytes && s.klen.toNat ≤ s.params.keyBytes &&
    Config.pixelBytes * npix s ≤ s.params.pixBytes

/-- `Fits(DECODE)` (R39). -/
def fitsDecode (s : State) : Bool :=
  s.klen.toNat ≤ s.params.keyBytes && Config.pixelBytes * npix s ≤ s.params.pixBytes

end Sys2Proof.Machine
end

