-- ==== Sys2Proof/Machine/Cipher.lean ====
section
/-! DEFINITION. The CIPHER family (spec/40_cipher.md): the unit operation XORSTREAM and the command CIPHER. -/

namespace Sys2Proof.Machine

/-- XORSTREAM(m, k) (R50): byte `i` of the input XORed with byte `i mod len(k)` of the key. An empty key is the
identity (R51). -/
def xorStream (m k : List Byte) : List Byte :=
  if k.isEmpty then m else m.mapIdx (fun i b => b ^^^ k.getD (i % k.length) 0)

/-- The body of CIPHER, up to its ending (R53, R71). -/
def runCipher (s : State) : Except Failure State :=
  if !fitsCipher s then .error .badConfig
  else .ok (succeed s.mlen.toNat 0 (writeBytes .out 0 (xorStream (message s) (keyBytes s)) s))

/-- CIPHER (R53). -/
def execCipher (s : State) : Host.Outcome State Fault Refusal := endCommand s (runCipher s)

end Sys2Proof.Machine
end

