-- ==== Sys2Proof/Machine/Fec.lean ====
section
/-! DEFINITION. The FEC family (spec/42_fec.md): the 3-bit repetition encoder and the majority-vote decoder. -/

namespace Sys2Proof.Machine

/-- FECENC(s) (R60): three consecutive copies of every bit. -/
def fecEnc (s : List Bool) : List Bool := s.flatMap (fun b => [b, b, b])

/-- The number of ones of a group (R61). -/
def ones (a b c : Bool) : Nat := a.toNat + b.toNat + c.toNat

/-- The decoded bit of a group: 1 when it has two ones or more (R61). -/
def groupBit (a b c : Bool) : Bool := 2 ≤ ones a b c

/-- What a group adds to the count: 1 when it is not unanimous (R61). -/
def groupCount (a b c : Bool) : Nat := if ones a b c = 1 ∨ ones a b c = 2 then 1 else 0

/-- FECDEC(t) (R61): the decoded bits and the number of groups that are not unanimous, the last `len(t) mod 3` bits
ignored. -/
def fecDec : List Bool → List Bool × Nat
  | a :: b :: c :: rest =>
    let r := fecDec rest
    (groupBit a b c :: r.1, groupCount a b c + r.2)
  | _ => ([], 0)

end Sys2Proof.Machine
end

