-- ==== Sys2Proof/Machine/Framer.lean ====
section
/-! DEFINITION. The FRAMER family (spec/41_framer.md): bytes to bits and back, the 32-bit length header, and the frame
mux. A bit sequence is a list of bits in insertion order (R6). -/

namespace Sys2Proof.Machine

/-- The eight bits of a byte, the most significant first (R29, R54). -/
def byteBits (b : Byte) : List Bool := (List.range 8).map (fun j => b.getLsbD (7 - j))

/-- TOBITS(c) (R54). -/
def toBits (c : List Byte) : List Bool := c.flatMap byteBits

/-- The number a bit sequence spells, its first bit the most significant. -/
def bitsVal (s : List Bool) : Nat := s.foldl (fun n b => 2 * n + b.toNat) 0

/-- FROMBITS(s) (R55): groups of eight bits, the last `len(s) mod 8` bits ignored. -/
def fromBits : List Bool → List Byte
  | b0 :: b1 :: b2 :: b3 :: b4 :: b5 :: b6 :: b7 :: rest =>
    BitVec.ofNat 8 (bitsVal [b0, b1, b2, b3, b4, b5, b6, b7]) :: fromBits rest
  | _ => []

/-- BUILDHDR(L) (R56): the 32 bits of the length, the most significant first. The precondition `L < 2^32` is in the
type. -/
def buildHdr (L : Word) : List Bool := (List.range 32).map (fun q => L.getLsbD (31 - q))

/-- PARSEHDR(h) (R57), for a bit sequence of length 32. -/
def parseHdr (h : List Bool) : Nat := bitsVal h

/-- FRAME(c) (R58): the header, whose value is the number of body bits, then the body. -/
def frame (c : List Byte) : List Bool :=
  buildHdr (BitVec.ofNat 32 (toBits c).length) ++ toBits c

end Sys2Proof.Machine
end

