-- ==== Sys2Proof/Machine/Pixel.lean ====
section
/-! DEFINITION. The PIXEL family (spec/43_pixel.md): alpha forcing, embedding, extraction and header validation over the
memory `PIX`. CAPACITY is `cap` of Operands.lean. -/

namespace Sys2Proof.Machine

/-- The offset in `PIX` of the channel byte that carries coded bit `n`: pixel `n div 3`, channel `n mod 3` in the order
R, G, B (R47, R66). -/
def slot (n : Nat) : Nat := Config.pixelBytes * (n / Config.channels) + n % Config.channels

/-- The offset in `PIX` of the alpha byte of pixel `p` (R27). -/
def alphaAt (p : Nat) : Nat := Config.pixelBytes * p + 3

/-- A channel byte with one bit put in its least significant bit: `(v & 0xFE) | bit` (R66). -/
def putLsb (v : Byte) (b : Bool) : Byte := (v &&& Config.lsbClear) ||| (if b then 1#8 else 0#8)

/-- ALPHAFORCE (R65): the alpha byte of every pixel of the buffer becomes 255. -/
def alphaForce (s : State) : State :=
  (List.range (npix s)).foldl (fun s p => memWrite s .pix (alphaAt p) Config.alphaOpaque) s

/-- The loop of EMBED (R66), from coded bit `n` on. -/
def embedBits : Nat → List Bool → State → State
  | _, [], s => s
  | n, b :: t, s => embedBits (n + 1) t (memWrite s .pix (slot n) (putLsb (memRead s .pix (slot n)) b))

/-- EMBED(t) (R66): the capacity check before any write, then alpha forcing, then the bits. -/
def embed (t : List Bool) (s : State) : Except Failure State :=
  if t.length > cap s then .error .insufficientCapacity
  else .ok (embedBits 0 t (alphaForce s))

/-- The least significant bit of the channel byte that carries coded bit `n` (R67). -/
def codedBit (s : State) (n : Nat) : Bool := (memRead s .pix (slot n)).getLsbD 0

/-- EXTRACT(off, cnt) (R67). -/
def extract (s : State) (off cnt : Nat) : Except Failure (List Bool) :=
  if off + cnt > cap s then .error .truncatedExtraction
  else .ok ((List.range cnt).map (fun i => codedBit s (off + i)))

/-- VALIDATEHDR(L) (R68), its arithmetic without wrap-around. -/
def validateHdr (s : State) (L : Nat) : Except Failure Unit :=
  if L = 0 then .error .corruptHeader
  else if L % Config.unitBits ≠ 0 then .error .corruptHeader
  else if Config.codedHdrBits + Config.rep * L > cap s then .error .corruptHeader
  else .ok ()

end Sys2Proof.Machine
end

