-- ==== Sys2Proof/Machine/Command.lean ====
section
/-! DEFINITION. The command family (spec/44_commands.md): ENCODE, DECODE, and the ending of an illegal command word. -/

namespace Sys2Proof.Machine

/-- The coded length of an ENCODE of a message of `M` bytes, without wrap-around (R72). -/
def codedLen (M : Nat) : Nat := Config.rep * (Config.hdrBits + Config.unitBits * M)

/-- The body of ENCODE, up to its ending (R71, R72). -/
def runEncode (s : State) : Except Failure State :=
  if !fitsEncode s then .error .badConfig
  else if codedLen s.mlen.toNat > cap s then .error .insufficientCapacity
  else do
    let c := xorStream (message s) (keyBytes s)
    let s' ← embed (fecEnc (frame c)) s
    .ok (succeed 0 0 s')

/-- ENCODE (R72). -/
def execEncode (s : State) : Host.Outcome State Fault Refusal := endCommand s (runEncode s)

/-- The body of DECODE, up to its ending (R71, R73). -/
def runDecode (s : State) : Except Failure State :=
  if !fitsDecode s then .error .badConfig
  else do
    let hb ← extract s 0 Config.codedHdrBits
    let (h, c1) := fecDec hb
    let L := parseHdr h
    validateHdr s L
    let bb ← extract s Config.codedHdrBits (Config.rep * L)
    let (b, c2) := fecDec bb
    let m := xorStream (fromBits b) (keyBytes s)
    .ok (succeed (L / Config.unitBits) (c1 + c2) (writeBytes .out 0 m s))

/-- DECODE (R73). -/
def execDecode (s : State) : Host.Outcome State Fault Refusal := endCommand s (runDecode s)

/-- ILLEGAL (R76): every word that is no command. -/
def execIllegal (s : State) : Host.Outcome State Fault Refusal := endCommand s (.error .illegalCommand)

end Sys2Proof.Machine
end

