-- ==== Sys2Proof/Machine/Step.lean ====
section
/-! DEFINITION. One step of the hardware with its host (R8, R35): the next access of the host, or nothing when the host
has none. The core fetches no instruction (R19, R37): a command word reaches it by the host's write to CMD. -/

namespace Sys2Proof.Machine

/-- `Execute(w)` of R71: what a host write of `w` to CMD does, as one atomic step. -/
def runCommand (w : Word) (s : State) : Host.Outcome State Fault Refusal :=
  match Sys2Proof.decode w with
  | .ok i => exec i s
  | .error _ => execIllegal s

/-- One access of the host, made on the state without it. -/
def serve (a : Access) (s : State) : Host.Outcome State Fault Refusal :=
  match a with
  | .writeReg size offset v =>
    if regAt size offset = some .cmd then runCommand v s else .next (hostRegWrite s size offset v)
  | .readReg size offset => .next (reply (.word (hostRegRead s size offset)) s)
  | .storeByte sp offset v =>
    if offset < s.params.size sp then .next (memWrite s sp offset v) else .fault (.noSuchOffset sp offset)
  | .loadByte sp offset =>
    if offset < s.params.size sp then .next (reply (.byte (memRead s sp offset)) s)
    else .fault (.noSuchOffset sp offset)
  | .reset => .next (platformReset s)

/-- One step: the host's next access (R35). With none, the core is idle and holds its state (R85). -/
def step (s : State) : Host.Outcome State Fault Refusal :=
  match s.pending with
  | [] => .next s
  | a :: rest => serve a { s with pending := rest }

/-- The state whose very next step is the host's write of this command word to CMD (R10,
notes/assumptions/4.md). -/
def State.withFetchWord (s : State) (nbits w : Nat) : State :=
  { s with pending := .writeReg 4 0x00 (BitVec.ofNat 32 (w % 2 ^ nbits)) :: s.pending }

end Sys2Proof.Machine
end

