-- ==== Sys2Proof/Machine/Script.lean ====
section
/-! DEFINITION. The host-script notation of R49: a line stands for one or more accesses of the host, and a script is a
straight line of them. Comments and the expected values written after `=` are no accesses. -/

namespace Sys2Proof.Machine

/-- A line of a host script (R49). -/
inductive ScriptLine where
  /-- `wr NAME, v` -/
  | wr (r : Reg) (v : Word)
  /-- `rd NAME` -/
  | rd (r : Reg)
  /-- `st S:a, b0 b1 ...` -/
  | st (sp : Space) (a : Nat) (bs : List Byte)
  /-- `ld S:a, k` -/
  | ld (sp : Space) (a k : Nat)
  /-- `cmd CIPHER`, `cmd ENCODE`, `cmd DECODE` -/
  | cmd (i : Instr)
  /-- `cmd w` -/
  | cmdWord (w : Word)
  deriving DecidableEq, Repr

/-- The accesses of a script line, in order (R49): one byte read or write is one access (R35). -/
def ScriptLine.accesses : ScriptLine → List Access
  | .wr r v => [.writeReg 4 r.offset v]
  | .rd r => [.readReg 4 r.offset]
  | .st sp a bs => bs.mapIdx (fun i b => .storeByte sp (a + i) b)
  | .ld sp a k => (List.range k).map (fun i => .loadByte sp (a + i))
  | .cmd i => [.writeReg 4 Reg.cmd.offset (Sys2Proof.encode i)]
  | .cmdWord w => [.writeReg 4 Reg.cmd.offset w]

/-- The state whose host will make the accesses of a script, after those it has already to make. -/
def State.withScript (s : State) (l : List ScriptLine) : State :=
  { s with pending := s.pending ++ l.flatMap ScriptLine.accesses }

end Sys2Proof.Machine
end

