-- ==== Sys2Proof/Safety.lean ====
section
/-! DEFINITION. The terms the statements are written in: what a good state is (the invariant), what stays the same
between two states, and the closed forms the spec gives of the commands' results (R69, R74, R75), written byte by byte
and pixel by pixel from the spec and not through the unit operations. -/

namespace Sys2Proof.Machine

/-- A step that ends in a next state: neither a fault nor a refusal. -/
def safeOutcome : Host.Outcome State Fault Refusal → Bool
  | .next _ => true
  | .fault _ => false
  | .refused _ => false

/-- The states a machine with these memory sizes comes to, from the state after reset with any host. -/
inductive Reachable (p : Params) : State → Prop where
  | start (host : List Access) : Reachable p { State.initial p with pending := host }
  | next {s t : State} : Reachable p s → step s = .next t → Reachable p t

/-- The memories are what R21 and R26 say: their sizes meet R4, each is in canonical form, and no byte is listed at or
beyond the size of its space. -/
structure State.MemInv (s : State) : Prop where
  sizes : s.params.wf = true
  canonical : ∀ sp, (s.mem sp).wf
  inRange : ∀ sp, ∀ c ∈ s.mem sp, c.1 < s.params.size sp

/-- The output registers are consistent: code 4 is never in STATUS (R87), a failed command left OLEN and CORRECTED 0
(R81), OLEN names bytes of `OUT` only (R16), and CORRECTED is at most `32 + L` for `L = 8 * OLEN` (R17). -/
structure State.OutInv (s : State) : Prop where
  codeFour : s.status ≠ .failed .imageLoadFailure
  failedZero : s.status ≠ .ok → s.olen = 0 ∧ s.corrected = 0
  olenFits : s.olen.toNat ≤ s.params.outBytes
  correctedBound : s.corrected.toNat ≤ 32 + 8 * s.olen.toNat

/-- Every byte of a space reads as before. -/
def SameBytes (s t : State) (sp : Space) : Prop := ∀ a, memRead t sp a = memRead s sp a

/-- The registers no command writes, and the model's own fields, are as before. -/
def SameInputs (s t : State) : Prop :=
  t.width = s.width ∧ t.height = s.height ∧ t.mlen = s.mlen ∧ t.klen = s.klen ∧
    t.params = s.params ∧ t.draw = s.draw ∧ t.pending = s.pending ∧ t.replies = s.replies

/-- The key byte that meets message byte `i`; an empty key contributes nothing (R50, R51, R75 e). -/
def keyTerm (s : State) (i : Nat) : Byte :=
  if s.klen = 0 then 0 else memRead s .key (i % s.klen.toNat)

/-- Byte `i` of `XORSTREAM(MSG[0..M), KEY[0..KLEN))` (R50). -/
def cipherByte (s : State) (i : Nat) : Byte := memRead s .msg i ^^^ keyTerm s i

/-- The Frame bit `fb(p)` of R74: bit `31 - p` of the body length for `p < 32`, then the bits of the cipher bytes, the
most significant first. -/
def frameBit (s : State) (p : Nat) : Bool :=
  if p < 32 then (8 * s.mlen.toNat).testBit (31 - p)
  else (cipherByte s ((p - 32) / 8)).getLsbD (7 - (p - 32) % 8)

/-- The least significant bit of channel `ch` of pixel `p` (R27, R47). -/
def lsb (s : State) (p ch : Nat) : Bool := (memRead s .pix (4 * p + ch)).getLsbD 0

/-- The majority of the three least significant bits of a pixel, as the circuit of R62. -/
def pixelBit (s : State) (p : Nat) : Bool :=
  (lsb s p 0 && lsb s p 1) || (lsb s p 0 && lsb s p 2) || (lsb s p 1 && lsb s p 2)

/-- The three least significant bits of a pixel are not all equal (R62, R69). -/
def pixelSplit (s : State) (p : Nat) : Bool := !(lsb s p 0 == lsb s p 1 && lsb s p 1 == lsb s p 2)

/-- The number pixels 0 to 31 spell, the most significant bit in pixel 0 (R48, R57). -/
def headerLen (s : State) : Nat := ((List.range 32).map (fun q => (pixelBit s q).toNat * 2 ^ (31 - q))).sum

/-- The cipher byte pixels `32 + 8i` to `32 + 8i + 7` spell, the most significant bit first (R48, R55). -/
def bodyByte (s : State) (i : Nat) : Byte :=
  BitVec.ofNat 8 ((List.range 8).map (fun j => (pixelBit s (32 + 8 * i + j)).toNat * 2 ^ (7 - j))).sum

/-- The number of pixels below `n` whose three bits are not unanimous (R69). -/
def corrections (s : State) (n : Nat) : Nat := (List.range n).countP (pixelSplit s)

/-- The number of channels of pixel `p` whose least significant bit differs between two states. -/
def flips (s t : State) (p : Nat) : Nat :=
  (lsb s p 0 ^^ lsb t p 0).toNat + (lsb s p 1 ^^ lsb t p 1).toNat + (lsb s p 2 ^^ lsb t p 2).toNat

/-- What the host must leave as it was for a later DECODE to find the payload (R75 a, R91): the dimensions and the key
register, and a memory its extents fit. -/
def SameSetup (s u : State) : Prop :=
  u.width = s.width ∧ u.height = s.height ∧ u.params = s.params

/-- The key registers and the key bytes are the same (R75 a). -/
def SameKey (s u : State) : Prop :=
  u.klen = s.klen ∧ ∀ i, i < s.klen.toNat → memRead u .key i = memRead s .key i

/-- The three least significant bits of every pixel below `n` are the same (R75 a). -/
def SamePayload (s u : State) (n : Nat) : Prop := ∀ p, p < n → flips s u p = 0

end Sys2Proof.Machine
end

