-- ==== Sys2Proof/Certificates/Slice0/Obligations.lean ====
section
/-! DEFINITION. The statements about DSF-CORE, from the numbered rules of spec/. Each docstring names the rule it
formalises; a statement that says something of the model's own choosing says so. -/

open Sys2Proof Sys2Proof.Machine

/-! ### Reset -/

/-- R24, for every choice of the memory sizes: every register reads 0, every byte of every memory is the free value of
U6 (notes/assumptions/2.md), and the core is idle. That the reset machine has the sizes `Config.resetParams` and an
empty list of host accesses is the model's choice (notes/assumptions/1.md and 4.md). -/
def Obligations.ResetState : Prop :=
  State.reset = State.initial Config.resetParams ∧
  ∀ p : Params,
    (∀ r : Reg, regRead (State.initial p) r = 0) ∧
    (∀ sp a, memRead (State.initial p) sp a = Config.unwrittenByte (State.initial p).draw sp a) ∧
    (State.initial p).params = p ∧
    step (State.initial p) = .next (State.initial p)

/-- R89: a reset puts every register at 0 and leaves every byte of the four memories at a free value of a new draw,
whatever the state before it. The counter of draws is the model's (notes/assumptions/2.md). -/
def Obligations.PlatformReset : Prop :=
  ∀ (s : State) (rest : List Access), s.pending = .reset :: rest →
    ∃ t, step s = .next t ∧ (∀ r : Reg, regRead t r = 0) ∧ t.status = .ok ∧
      (∀ sp a, memRead t sp a = Config.unwrittenByte t.draw sp a) ∧ t.draw = s.draw + 1 ∧
      t.params = s.params ∧ t.pending = rest ∧ t.replies = s.replies

/-- The first command after reset, for every choice of the memory sizes: CIPHER of nothing succeeds and leaves the
state as it is, ENCODE is InsufficientCapacity, DECODE is TruncatedExtraction (95_test_vectors.md, V-CMD 6 to 8). -/
def Obligations.FirstCommandAfterReset : Prop :=
  ∀ p : Params,
    exec .cipher (State.initial p) = .next (State.initial p) ∧
    exec .encode (State.initial p) =
      .next { State.initial p with status := .failed .insufficientCapacity } ∧
    exec .decode (State.initial p) =
      .next { State.initial p with status := .failed .truncatedExtraction }

/-! ### The command word -/

/-- Words written out from R41 and the rows V-CMD 1 to 5 of 95_test_vectors.md. -/
def Obligations.SampleWords : Prop :=
  decode 0b00000000000000000000000000000001#32 = .ok .cipher ∧
  decode 0b00000000000000000000000000000010#32 = .ok .encode ∧
  decode 0b00000000000000000000000000000011#32 = .ok .decode ∧
  decode 0x00000000#32 = .error .unassignedOpcode ∧
  decode 0x00000004#32 = .error .unassignedOpcode ∧
  decode 0x000000FF#32 = .error .unassignedOpcode ∧
  decode 0x00000102#32 = .error .zeroFieldNotZero ∧
  decode 0x80000001#32 = .error .zeroFieldNotZero

/-- Decoding the encoding of a well-formed command gives it back, and so does the table's numbering of the word. -/
def Obligations.EncodeThenDecode : Prop :=
  ∀ i : Instr, i.wf = true → decode (encode i) = .ok i ∧ decodeTableWord 32 (encode i).toNat = some i

/-- R41: for every word, `w[31:8] != 0` is illegal, otherwise the opcode selects by the table, any value not in it is
illegal; and a word is a command exactly when it selects that command's row, `(w & mask) == match`. -/
def Obligations.DecoderIsTheTable : Prop :=
  ∀ w : Word,
    (w.extractLsb' 8 24 ≠ 0#24 → decode w = .error .zeroFieldNotZero) ∧
    (w.extractLsb' 8 24 = 0#24 → w.extractLsb' 0 8 ≠ 1#8 → w.extractLsb' 0 8 ≠ 2#8 → w.extractLsb' 0 8 ≠ 3#8 →
      decode w = .error .unassignedOpcode) ∧
    (decode w = .ok .cipher ↔ w &&& 0xFFFFFFFF#32 = 0x00000001#32) ∧
    (decode w = .ok .encode ↔ w &&& 0xFFFFFFFF#32 = 0x00000002#32) ∧
    (decode w = .ok .decode ↔ w &&& 0xFFFFFFFF#32 = 0x00000003#32)

/-- R76: every command word that is not 0x00000001, 0x00000002 or 0x00000003 ends with STATUS = 5, OLEN = 0,
CORRECTED = 0 and changes nothing else; the host's access is consumed. -/
def Obligations.IllegalWord : Prop :=
  (regRead (raise .illegalCommand State.reset) .status = 5) ∧
  ∀ (s : State) (rest : List Access) (w : Word), s.pending = .writeReg 4 0x00 w :: rest →
    w ≠ 0x00000001#32 → w ≠ 0x00000002#32 → w ≠ 0x00000003#32 →
      step s = .next { s with status := .failed .illegalCommand, olen := 0, corrected := 0, pending := rest }

/-! ### The step and the host -/

/-- A step runs the decoded command (R10, R71): when the host's next access writes a word to CMD that decodes to `i`, the
step is `exec i` on the state with that access consumed; and `withFetchWord` puts exactly such an access in front. -/
def Obligations.StepRunsCommand : Prop :=
  ∀ (s : State) (i : Instr),
    (∀ (rest : List Access) (w : Word), s.pending = .writeReg 4 0x00 w :: rest → decode w = .ok i →
      step s = exec i { s with pending := rest }) ∧
    (∀ w : Nat, decodeTableWord 32 w = some i → step (s.withFetchWord 32 w) = exec i s)

/-- Between commands the core is idle and holds its state (R85). That a step with no host access answers the same state
is the model's choice (notes/assumptions/4.md). -/
def Obligations.IdleStep : Prop :=
  ∀ s : State, s.pending = [] → step s = .next s

/-- A host read of the register space, at every size and offset (R9 to R17, R25): what it returns, and that it changes
nothing but the host's own record of what it read. -/
def Obligations.RegisterRead : Prop :=
  ∀ (s : State) (rest : List Access) (size offset : Nat), s.pending = .readReg size offset :: rest →
    step s = .next { s with
      pending := rest
      replies := .word (
        if size = 4 ∧ offset = 0x04 then s.status.code.setWidth 32
        else if size = 4 ∧ offset = 0x08 then s.width.setWidth 32
        else if size = 4 ∧ offset = 0x0C then s.height.setWidth 32
        else if size = 4 ∧ offset = 0x10 then s.mlen
        else if size = 4 ∧ offset = 0x14 then s.klen
        else if size = 4 ∧ offset = 0x18 then s.olen
        else if size = 4 ∧ offset = 0x1C then s.corrected
        else 0) :: s.replies }

/-- A host write to the register space that is not a command, at every size and offset (R9 to R17, R25): WIDTH, HEIGHT,
MLEN and KLEN take the value, every other register keeps its own. -/
def Obligations.RegisterWrite : Prop :=
  ∀ (s : State) (rest : List Access) (size offset : Nat) (v : Word), s.pending = .writeReg size offset v :: rest →
    ¬(size = 4 ∧ offset = 0x00) →
    step s = .next { s with
      pending := rest
      width := if size = 4 ∧ offset = 0x08 then v.setWidth 16 else s.width
      height := if size = 4 ∧ offset = 0x0C then v.setWidth 16 else s.height
      mlen := if size = 4 ∧ offset = 0x10 then v else s.mlen
      klen := if size = 4 ∧ offset = 0x14 then v else s.klen }

/-- R25: an access outside the register file reads 0 or is ignored, and neither changes any state of the hardware. -/
def Obligations.OutsideRegisterFile : Prop :=
  ∀ (s : State) (rest : List Access) (size offset : Nat) (v : Word),
    (size ≠ 4 ∨ offset % 4 ≠ 0 ∨ 0x20 ≤ offset) →
    (s.pending = .readReg size offset :: rest →
      step s = .next { s with pending := rest, replies := .word 0 :: s.replies }) ∧
    (s.pending = .writeReg size offset v :: rest → step s = .next { s with pending := rest })

/-- R12 and R13: WIDTH and HEIGHT keep bits 15 to 0 of what the host writes, read it zero-extended, are never written by
the core, and are 0 at reset. -/
def Obligations.WidthAndHeight : Prop :=
  (∀ (s : State) (v : Word),
    regRead (hostRegWrite s 4 0x08 v) .width = (v.extractLsb' 0 16).setWidth 32 ∧
    regRead (hostRegWrite s 4 0x0C v) .height = (v.extractLsb' 0 16).setWidth 32) ∧
  (∀ (w : Word) (s t : State), runCommand w s = .next t →
    regRead t .width = regRead s .width ∧ regRead t .height = regRead s .height) ∧
  (∀ p : Params, regRead (State.initial p) .width = 0 ∧ regRead (State.initial p) .height = 0)

/-- R14 and R15: MLEN and KLEN hold any 32-bit value the host writes, are never written by the core, are 0 at reset; a
value too large for the memory makes the commands that read it fail with BadConfig; DECODE ignores MLEN; KLEN = 0 is
legal and is the empty key. -/
def Obligations.LengthRegisters : Prop :=
  (∀ (s : State) (v : Word),
    regRead (hostRegWrite s 4 0x10 v) .mlen = v ∧ regRead (hostRegWrite s 4 0x14 v) .klen = v) ∧
  (∀ (w : Word) (s t : State), runCommand w s = .next t →
    regRead t .mlen = regRead s .mlen ∧ regRead t .klen = regRead s .klen) ∧
  (∀ p : Params, regRead (State.initial p) .mlen = 0 ∧ regRead (State.initial p) .klen = 0) ∧
  (∀ s : State, s.params.msgBytes < s.mlen.toNat →
    exec .cipher s = .next (raise .badConfig s) ∧ exec .encode s = .next (raise .badConfig s)) ∧
  (∀ (s : State) (i : Instr), s.params.keyBytes < s.klen.toNat → exec i s = .next (raise .badConfig s)) ∧
  (∀ (s : State) (m : Word), ∃ t, exec .decode s = .next t ∧
    exec .decode { s with mlen := m } = .next { t with mlen := m }) ∧
  (∀ (s : State) (m : List Byte), s.klen = 0 → xorStream m (keyBytes s) = m)

/-- A host store of one byte within a space (R26, R35): that byte reads as stored, every other byte of every space reads
as before, and no register changes. -/
def Obligations.HostStore : Prop :=
  ∀ (s : State) (rest : List Access) (sp : Space) (a : Nat) (v : Byte), s.pending = .storeByte sp a v :: rest →
    a < s.params.size sp →
    ∃ t, step s = .next t ∧
      (∀ sp' b, memRead t sp' b = if sp' = sp ∧ b = a then v else memRead s sp' b) ∧
      t.status = s.status ∧ t.olen = s.olen ∧ t.corrected = s.corrected ∧
      SameInputs { s with pending := rest } t

/-- A host load of one byte within a space (R26, R32): it returns the byte and changes nothing. -/
def Obligations.HostLoad : Prop :=
  ∀ (s : State) (rest : List Access) (sp : Space) (a : Nat), s.pending = .loadByte sp a :: rest →
    a < s.params.size sp →
    step s = .next { s with pending := rest, replies := .byte (memRead s sp a) :: s.replies }

/-- An offset at or beyond the size of a space is no address of it (R26; 93_implementation_defined.md U14): the host's
access stops the step by name. -/
def Obligations.HostOutsideSpace : Prop :=
  ∀ (s : State) (rest : List Access) (sp : Space) (a : Nat) (v : Byte), s.params.size sp ≤ a →
    (s.pending = .storeByte sp a v :: rest → step s = .fault (.noSuchOffset sp a)) ∧
    (s.pending = .loadByte sp a :: rest → step s = .fault (.noSuchOffset sp a))

/-! ### Status -/

/-- The numbers of R44 as the host reads them in STATUS, bits 31 to 4 being 0 (R11). -/
def Obligations.StatusCodes : Prop :=
  (Status.ok).word = 0x00000000#32 ∧
  (Status.failed .insufficientCapacity).word = 0x00000001#32 ∧
  (Status.failed .corruptHeader).word = 0x00000002#32 ∧
  (Status.failed .truncatedExtraction).word = 0x00000003#32 ∧
  (Status.failed .imageLoadFailure).word = 0x00000004#32 ∧
  (Status.failed .illegalCommand).word = 0x00000005#32 ∧
  (Status.failed .badConfig).word = 0x00000006#32

/-- R81: the whole effect of `raise F`. -/
def Obligations.FailureEntry : Prop :=
  ∀ (f : Failure) (s : State),
    regRead (raise f s) .status = f.code.setWidth 32 ∧
    regRead (raise f s) .olen = 0 ∧ regRead (raise f s) .corrected = 0 ∧
    (∀ sp, SameBytes s (raise f s) sp) ∧ SameInputs s (raise f s)

/-! ### The cipher -/

/-- R50 and R51: XORSTREAM byte by byte; an empty key is the identity. -/
def Obligations.XorStreamBytes : Prop :=
  (∀ m k : List Byte, k ≠ [] → (xorStream m k).length = m.length ∧
    ∀ i, i < m.length → (xorStream m k).getD i 0 = m.getD i 0 ^^^ k.getD (i % k.length) 0) ∧
  (∀ m : List Byte, xorStream m [] = m)

/-- R52: XORSTREAM is its own inverse; with two keys the result differs from the message exactly where the two key
bytes differ (an empty key's byte is 0). -/
def Obligations.XorStreamSelfInverse : Prop :=
  (∀ m k : List Byte, xorStream (xorStream m k) k = m) ∧
  ∀ m k1 k2 : List Byte, (xorStream (xorStream m k1) k2).length = m.length ∧
    ∀ i, i < m.length →
      ((xorStream (xorStream m k1) k2).getD i 0 =
        m.getD i 0 ^^^ k1.getD (i % k1.length) 0 ^^^ k2.getD (i % k2.length) 0) ∧
      ((xorStream (xorStream m k1) k2).getD i 0 ≠ m.getD i 0 ↔
        k1.getD (i % k1.length) 0 ≠ k2.getD (i % k2.length) 0)

/-! ### The framer -/

/-- R54 to R57, bit by bit: TOBITS and BUILDHDR put the most significant bit first, FROMBITS and PARSEHDR read it so, and
FROMBITS ignores the last `len(s) mod 8` bits. -/
def Obligations.FramerBits : Prop :=
  (∀ m : List Byte, (toBits m).length = 8 * m.length ∧
    ∀ i j, i < m.length → j < 8 → (toBits m).getD (8 * i + j) false = (m.getD i 0).getLsbD (7 - j)) ∧
  (∀ s : List Bool, (fromBits s).length = s.length / 8 ∧
    ∀ i, i < s.length / 8 → ((fromBits s).getD i 0).toNat =
      ((List.range 8).map (fun j => (s.getD (8 * i + j) false).toNat * 2 ^ (7 - j))).sum) ∧
  (∀ L : Word, (buildHdr L).length = 32 ∧
    ∀ q, q < 32 → (buildHdr L).getD q false = L.getLsbD (31 - q)) ∧
  (∀ h : List Bool, h.length = 32 → parseHdr h < 2 ^ 32 ∧
    parseHdr h = ((List.range 32).map (fun q => (h.getD q false).toNat * 2 ^ (31 - q))).sum)

/-- R45 and R58: the Frame is the 32-bit length of the body, then the body, each most significant bit first. -/
def Obligations.FrameLayout : Prop :=
  ∀ m : List Byte, 8 * m.length < 2 ^ 32 →
    (frame m).length = 32 + 8 * m.length ∧
    (∀ q, q < 32 → (frame m).getD q false = (8 * m.length).testBit (31 - q)) ∧
    (∀ i j, i < m.length → j < 8 → (frame m).getD (32 + 8 * i + j) false = (m.getD i 0).getLsbD (7 - j))

/-- R59: the laws of the framer family. -/
def Obligations.FramerInverses : Prop :=
  (∀ m : List Byte, fromBits (toBits m) = m) ∧
  (∀ s : List Bool, s.length % 8 = 0 → toBits (fromBits s) = s) ∧
  (∀ s : List Bool, toBits (fromBits s) = s.take (8 * (s.length / 8))) ∧
  (∀ L : Word, parseHdr (buildHdr L) = L.toNat) ∧
  (∀ h : List Bool, h.length = 32 → buildHdr (BitVec.ofNat 32 (parseHdr h)) = h) ∧
  (∀ m : List Byte, 8 * m.length < 2 ^ 32 →
    parseHdr ((frame m).take 32) = 8 * m.length ∧ 8 * m.length = (frame m).length - 32 ∧
    fromBits ((frame m).drop 32) = m)

/-! ### The error-correcting code -/

/-- R62: the decoder's truth table, as the table and as the circuit. -/
def Obligations.FecTruthTable : Prop :=
  fecDec [false, false, false] = ([false], 0) ∧ fecDec [false, false, true] = ([false], 1) ∧
  fecDec [false, true, false] = ([false], 1) ∧ fecDec [false, true, true] = ([true], 1) ∧
  fecDec [true, false, false] = ([false], 1) ∧ fecDec [true, false, true] = ([true], 1) ∧
  fecDec [true, true, false] = ([true], 1) ∧ fecDec [true, true, true] = ([true], 0) ∧
  ∀ a b c : Bool, fecDec [a, b, c] =
    ([(a && b) || (a && c) || (b && c)], if a = b ∧ b = c then 0 else 1)

/-- R60 and R61, bit by bit: three copies of every bit; one bit for every whole group, 1 when the group has two ones or
more; the count of the groups with one or two ones. -/
def Obligations.FecBits : Prop :=
  (∀ s : List Bool, (fecEnc s).length = 3 * s.length ∧
    ∀ n, n < 3 * s.length → (fecEnc s).getD n false = s.getD (n / 3) false) ∧
  (∀ t : List Bool,
    let n1 := fun g => (t.getD (3 * g) false).toNat + (t.getD (3 * g + 1) false).toNat + (t.getD (3 * g + 2) false).toNat
    (fecDec t).1.length = t.length / 3 ∧
    (∀ g, g < t.length / 3 → (fecDec t).1.getD g false = decide (2 ≤ n1 g)) ∧
    (fecDec t).2 = (List.range (t.length / 3)).countP (fun g => n1 g == 1 || n1 g == 2) ∧
    (fecDec t).2 ≤ t.length / 3)

/-- R63, with the flips of a channel as a bit sequence `e` of the coded length: a group with no flip or one keeps its
bit, a group with two or three loses it; the count is the number of groups with one or two flips, and is 0 with none;
the groups are independent; and FECDEC distributes over concatenation at group boundaries. -/
def Obligations.FecUnderFlips : Prop :=
  (∀ s : List Bool, fecDec (fecEnc s) = (s, 0)) ∧
  (∀ s e : List Bool, e.length = 3 * s.length →
    let n1 := fun g => (e.getD (3 * g) false).toNat + (e.getD (3 * g + 1) false).toNat + (e.getD (3 * g + 2) false).toNat
    let r := fecDec (List.zipWith (fun x y => x ^^ y) (fecEnc s) e)
    r.1.length = s.length ∧
    (∀ g, g < s.length → r.1.getD g false = if n1 g ≤ 1 then s.getD g false else !(s.getD g false)) ∧
    r.2 = (List.range s.length).countP (fun g => n1 g == 1 || n1 g == 2)) ∧
  (∀ a b : List Bool, a.length % 3 = 0 →
    fecDec (a ++ b) = ((fecDec a).1 ++ (fecDec b).1, (fecDec a).2 + (fecDec b).2))

/-! ### The pixels -/

/-- R18 and R64: the pixel count and the capacity are exact, without wrap-around, with the bounds R18 gives. -/
def Obligations.CapacityIsExact : Prop :=
  ∀ s : State, npix s = (regRead s .width).toNat * (regRead s .height).toNat ∧ npix s ≤ 4294836225 ∧
    cap s = 3 * ((regRead s .width).toNat * (regRead s .height).toNat) ∧ cap s ≤ 12884508675 ∧ cap s % 3 = 0 ∧
    (regRead s .width = 0 ∨ regRead s .height = 0 → cap s = 0)

/-- R65: ALPHAFORCE writes 255 to the alpha byte of every pixel of the buffer, to no other byte and to no register. -/
def Obligations.AlphaForceBytes : Prop :=
  ∀ s : State,
    (∀ p, p < npix s → memRead (alphaForce s) .pix (4 * p + 3) = 255#8) ∧
    (∀ sp a, ¬(sp = .pix ∧ ∃ p, p < npix s ∧ a = 4 * p + 3) → memRead (alphaForce s) sp a = memRead s sp a) ∧
    (alphaForce s).status = s.status ∧ (alphaForce s).olen = s.olen ∧ (alphaForce s).corrected = s.corrected ∧
    SameInputs s (alphaForce s)

/-- R66: EMBED fails before any write when the coded length exceeds the capacity; otherwise it forces the alpha of every
pixel, puts coded bit `n` in the least significant bit of byte `4*(n div 3) + (n mod 3)`, and changes no other byte and no
register. -/
def Obligations.EmbedBytes : Prop :=
  ∀ (s : State) (t : List Bool),
    (cap s < t.length → embed t s = .error .insufficientCapacity) ∧
    (t.length ≤ cap s → ∃ u, embed t s = .ok u ∧
      (∀ n, n < t.length → memRead u .pix (4 * (n / 3) + n % 3) =
        (memRead s .pix (4 * (n / 3) + n % 3) &&& 0xFE#8) ||| (if t.getD n false then 1#8 else 0#8)) ∧
      (∀ p, p < npix s → memRead u .pix (4 * p + 3) = 255#8) ∧
      (∀ sp a, ¬(sp = .pix ∧ ((∃ n, n < t.length ∧ a = 4 * (n / 3) + n % 3) ∨ ∃ p, p < npix s ∧ a = 4 * p + 3)) →
        memRead u sp a = memRead s sp a) ∧
      u.status = s.status ∧ u.olen = s.olen ∧ u.corrected = s.corrected ∧ SameInputs s u)

/-- R70: embedding keeps the dimensions, changes no bit of a colour byte but its least significant one, so the byte's
value by at most 1, and no colour byte past the coded length; extraction and validation change nothing, since they
answer no state. -/
def Obligations.EmbedPreserves : Prop :=
  ∀ (s u : State) (t : List Bool), embed t s = .ok u →
    u.width = s.width ∧ u.height = s.height ∧
    ∀ p ch, p < npix s → ch < 3 →
      (∀ j, 1 ≤ j → (memRead u .pix (4 * p + ch)).getLsbD j = (memRead s .pix (4 * p + ch)).getLsbD j) ∧
      ((memRead u .pix (4 * p + ch)).toNat ≤ (memRead s .pix (4 * p + ch)).toNat + 1 ∧
        (memRead s .pix (4 * p + ch)).toNat ≤ (memRead u .pix (4 * p + ch)).toNat + 1) ∧
      (t.length ≤ 3 * p + ch → memRead u .pix (4 * p + ch) = memRead s .pix (4 * p + ch))

/-- R67: EXTRACT fails when the region runs past the capacity; otherwise it gives bit 0 of each channel byte of the
region, in the order of embedding. -/
def Obligations.ExtractBits : Prop :=
  ∀ (s : State) (off cnt : Nat),
    (cap s < off + cnt → extract s off cnt = .error .truncatedExtraction) ∧
    (off + cnt ≤ cap s → ∃ r, extract s off cnt = .ok r ∧ r.length = cnt ∧
      ∀ i, i < cnt → r.getD i false = (memRead s .pix (4 * ((off + i) / 3) + (off + i) % 3)).getLsbD 0)

/-- R68: the header passes exactly when it is positive, a multiple of 8, and `96 + 3*L <= CAP`, computed without
wrap-around; any violation is CorruptHeader. A pass gives `L <= NPIX - 32`. -/
def Obligations.HeaderValidation : Prop :=
  ∀ (s : State) (L : Nat),
    (0 < L ∧ L % 8 = 0 ∧ 96 + 3 * L ≤ cap s → validateHdr s L = .ok () ∧ L ≤ npix s - 32) ∧
    (¬(0 < L ∧ L % 8 = 0 ∧ 96 + 3 * L ≤ cap s) → validateHdr s L = .error .corruptHeader)

/-- R69: the closed form of embedding a coded Frame, pixel by pixel, and of reading a region of whole pixels. -/
def Obligations.PixelClosedForm : Prop :=
  (∀ (s : State) (f : List Bool), 3 * f.length ≤ cap s → ∃ u, embed (fecEnc f) s = .ok u ∧
    (∀ p, p < npix s → memRead u .pix (4 * p + 3) = 255#8 ∧ ∀ ch, ch < 3 →
      memRead u .pix (4 * p + ch) = if p < f.length
        then (memRead s .pix (4 * p + ch) &&& 0xFE#8) ||| (if f.getD p false then 1#8 else 0#8)
        else memRead s .pix (4 * p + ch)) ∧
    (∀ a, 4 * npix s ≤ a → memRead u .pix a = memRead s .pix a)) ∧
  (∀ (s : State) (a b : Nat), a + b ≤ npix s → ∃ r, extract s (3 * a) (3 * b) = .ok r ∧
    (fecDec r).1 = (List.range b).map (fun p => pixelBit s (a + p)) ∧
    (fecDec r).2 = (List.range b).countP (fun p => pixelSplit s (a + p)))

/-! ### The commands -/

/-- R53: CIPHER. Where the extents fit it completes: `OUT` gets the message XORed with the repeating key, OLEN is MLEN,
CORRECTED and STATUS are 0, and nothing else changes. Where they do not, it is BadConfig before any write. -/
def Obligations.CipherResult : Prop :=
  ∀ s : State,
    (s.mlen.toNat ≤ s.params.msgBytes ∧ s.mlen.toNat ≤ s.params.outBytes ∧ s.klen.toNat ≤ s.params.keyBytes →
      ∃ t, exec .cipher s = .next t ∧ t.status = .ok ∧ t.olen = s.mlen ∧ t.corrected = 0 ∧
        (∀ a, memRead t .out a = if a < s.mlen.toNat then memRead s .msg a ^^^ keyTerm s a else memRead s .out a) ∧
        SameBytes s t .msg ∧ SameBytes s t .key ∧ SameBytes s t .pix ∧ SameInputs s t) ∧
    (¬(s.mlen.toNat ≤ s.params.msgBytes ∧ s.mlen.toNat ≤ s.params.outBytes ∧ s.klen.toNat ≤ s.params.keyBytes) →
      exec .cipher s = .next { s with status := .failed .badConfig, olen := 0, corrected := 0 })

/-- R74: the post-state of a successful ENCODE, in closed form, and that it succeeds whenever the extents fit and
`32 + 8*M <= NPIX`. -/
def Obligations.EncodeResult : Prop :=
  ∀ s : State, s.mlen.toNat ≤ s.params.msgBytes → s.klen.toNat ≤ s.params.keyBytes →
    4 * npix s ≤ s.params.pixBytes → 32 + 8 * s.mlen.toNat ≤ npix s →
    ∃ t, exec .encode s = .next t ∧ t.status = .ok ∧ t.olen = 0 ∧ t.corrected = 0 ∧
      (∀ p, p < npix s → memRead t .pix (4 * p + 3) = 255#8 ∧ ∀ ch, ch < 3 →
        memRead t .pix (4 * p + ch) = if p < 32 + 8 * s.mlen.toNat
          then (memRead s .pix (4 * p + ch) &&& 0xFE#8) ||| (if frameBit s p then 1#8 else 0#8)
          else memRead s .pix (4 * p + ch)) ∧
      (∀ a, 4 * npix s ≤ a → memRead t .pix a = memRead s .pix a) ∧
      SameBytes s t .msg ∧ SameBytes s t .key ∧ SameBytes s t .out ∧ SameInputs s t

/-- R73: DECODE. Where the extents fit, the buffer has 32 pixels and the header passes, it completes: `OUT` gets the
deciphered body bytes, OLEN their number, CORRECTED the non-unanimous pixels of header and body, and nothing else
changes. Otherwise it is BadConfig, TruncatedExtraction or CorruptHeader, in that order. -/
def Obligations.DecodeResult : Prop :=
  ∀ s : State,
    (s.klen.toNat ≤ s.params.keyBytes ∧ 4 * npix s ≤ s.params.pixBytes ∧ 32 ≤ npix s ∧
        0 < headerLen s ∧ headerLen s % 8 = 0 ∧ 32 + headerLen s ≤ npix s →
      ∃ t, exec .decode s = .next t ∧ t.status = .ok ∧ t.olen.toNat = headerLen s / 8 ∧
        t.corrected.toNat = corrections s (32 + headerLen s) ∧
        (∀ a, memRead t .out a = if a < headerLen s / 8 then bodyByte s a ^^^ keyTerm s a else memRead s .out a) ∧
        SameBytes s t .pix ∧ SameBytes s t .msg ∧ SameBytes s t .key ∧ SameInputs s t) ∧
    (¬(s.klen.toNat ≤ s.params.keyBytes ∧ 4 * npix s ≤ s.params.pixBytes) →
      exec .decode s = .next { s with status := .failed .badConfig, olen := 0, corrected := 0 }) ∧
    (s.klen.toNat ≤ s.params.keyBytes ∧ 4 * npix s ≤ s.params.pixBytes → npix s < 32 →
      exec .decode s = .next { s with status := .failed .truncatedExtraction, olen := 0, corrected := 0 }) ∧
    (s.klen.toNat ≤ s.params.keyBytes ∧ 4 * npix s ≤ s.params.pixBytes → 32 ≤ npix s →
      ¬(0 < headerLen s ∧ headerLen s % 8 = 0 ∧ 32 + headerLen s ≤ npix s) →
      exec .decode s = .next { s with status := .failed .corruptHeader, olen := 0, corrected := 0 })

/-- R80: a command word raises at most one failure, the first of the table's order whose condition holds; where none
holds, the command ends with STATUS = 0. -/
def Obligations.FailurePriority : Prop :=
  ∀ (w : Word) (s : State),
    (w ≠ 1#32 → w ≠ 2#32 → w ≠ 3#32 → runCommand w s = .next (raise .illegalCommand s)) ∧
    (w = 1#32 → (fitsCipher s = false → runCommand w s = .next (raise .badConfig s)) ∧
      (fitsCipher s = true → ∃ t, runCommand w s = .next t ∧ t.status = .ok)) ∧
    (w = 2#32 → (fitsEncode s = false → runCommand w s = .next (raise .badConfig s)) ∧
      (fitsEncode s = true → cap s < 3 * (32 + 8 * s.mlen.toNat) →
        runCommand w s = .next (raise .insufficientCapacity s)) ∧
      (fitsEncode s = true → 3 * (32 + 8 * s.mlen.toNat) ≤ cap s →
        ∃ t, runCommand w s = .next t ∧ t.status = .ok)) ∧
    (w = 3#32 → (fitsDecode s = false → runCommand w s = .next (raise .badConfig s)) ∧
      (fitsDecode s = true → cap s < 96 → runCommand w s = .next (raise .truncatedExtraction s)) ∧
      (fitsDecode s = true → 96 ≤ cap s →
        headerLen s = 0 ∨ headerLen s % 8 ≠ 0 ∨ cap s < 96 + 3 * headerLen s →
        runCommand w s = .next (raise .corruptHeader s)) ∧
      (fitsDecode s = true → 96 ≤ cap s → headerLen s ≠ 0 → headerLen s % 8 = 0 → 96 + 3 * headerLen s ≤ cap s →
        ∃ t, runCommand w s = .next t ∧ t.status = .ok))

/-- R39: a command is admissible exactly when the extents its registers name fit the memories. -/
def Obligations.Admissibility : Prop :=
  ∀ s : State,
    (fitsCipher s = true ↔ (regRead s .mlen).toNat ≤ s.params.msgBytes ∧ (regRead s .mlen).toNat ≤ s.params.outBytes ∧
      (regRead s .klen).toNat ≤ s.params.keyBytes) ∧
    (fitsEncode s = true ↔ (regRead s .mlen).toNat ≤ s.params.msgBytes ∧ (regRead s .klen).toNat ≤ s.params.keyBytes ∧
      4 * ((regRead s .width).toNat * (regRead s .height).toNat) ≤ s.params.pixBytes) ∧
    (fitsDecode s = true ↔ (regRead s .klen).toNat ≤ s.params.keyBytes ∧
      4 * ((regRead s .width).toNat * (regRead s .height).toNat) ≤ s.params.pixBytes) ∧
    (fitsCipher s = false → exec .cipher s = .next (raise .badConfig s)) ∧
    (fitsEncode s = false → exec .encode s = .next (raise .badConfig s)) ∧
    (fitsDecode s = false → exec .decode s = .next (raise .badConfig s))

/-- R82: every failure is precise: the state after a failed command is the state before it with the three output
registers overwritten. -/
def Obligations.FailuresArePrecise : Prop :=
  ∀ (w : Word) (s t : State), runCommand w s = .next t → t.status ≠ .ok →
    t = { s with status := t.status, olen := 0, corrected := 0 }

/-- Every command word ends in a next state, whatever the registers and the memories hold, and with a status its
command may have: 0 or 6 for CIPHER, 0, 1 or 6 for ENCODE, 0, 2, 3 or 6 for DECODE, 5 for every other word. -/
def Obligations.CommandsAlwaysEnd : Prop :=
  ∀ (w : Word) (s : State), ∃ t, runCommand w s = .next t ∧
    (w = 1#32 → regRead t .status = 0 ∨ regRead t .status = 6) ∧
    (w = 2#32 → regRead t .status = 0 ∨ regRead t .status = 1 ∨ regRead t .status = 6) ∧
    (w = 3#32 → regRead t .status = 0 ∨ regRead t .status = 2 ∨ regRead t .status = 3 ∨ regRead t .status = 6) ∧
    (w ≠ 1#32 → w ≠ 2#32 → w ≠ 3#32 → regRead t .status = 5)

/-- R20: no command reads STATUS, OLEN or CORRECTED: its next state is the same whatever the three hold. -/
def Obligations.OutputsAreNotRead : Prop :=
  ∀ (w : Word) (s : State) (st : Status) (o c : Word),
    runCommand w { s with status := st, olen := o, corrected := c } = runCommand w s

/-- R16 and R17: OLEN and CORRECTED are read-only for the host and written by every command, 0 by a failed one and by
ENCODE, MLEN and 0 by CIPHER, the message length and the corrected count, which does not overflow, by DECODE. -/
def Obligations.OutputRegisters : Prop :=
  (∀ (s : State) (v : Word), hostRegWrite s 4 0x18 v = s ∧ hostRegWrite s 4 0x1C v = s) ∧
  (∀ p : Params, (State.initial p).olen = 0 ∧ (State.initial p).corrected = 0) ∧
  (∀ (w : Word) (s t : State), runCommand w s = .next t →
    (t.status ≠ .ok → t.olen = 0 ∧ t.corrected = 0) ∧
    (t.status = .ok → w = 1#32 → t.olen = s.mlen ∧ t.corrected = 0) ∧
    (t.status = .ok → w = 2#32 → t.olen = 0 ∧ t.corrected = 0) ∧
    (t.status = .ok → w = 3#32 → t.olen.toNat = headerLen s / 8 ∧
      t.corrected.toNat = corrections s (32 + headerLen s) ∧ t.corrected.toNat ≤ 32 + headerLen s ∧
      32 + headerLen s ≤ npix s))

/-- The frame of the commands (R33, R84): no command writes `MSG`, `KEY`, the four input registers, or a byte of `PIX`
outside the buffer; CIPHER and DECODE write no byte of `PIX`, ENCODE none of `OUT`, and none at OLEN or above. -/
def Obligations.CommandFrame : Prop :=
  ∀ (i : Instr) (s t : State), exec i s = .next t →
    SameInputs s t ∧ SameBytes s t .msg ∧ SameBytes s t .key ∧
    (i ≠ .encode → SameBytes s t .pix) ∧
    (i = .encode → SameBytes s t .out ∧ ∀ a, 4 * npix s ≤ a → memRead t .pix a = memRead s .pix a) ∧
    (∀ a, t.olen.toNat ≤ a → memRead t .out a = memRead s .out a)

/-- ENCODE and DECODE look at WIDTH and HEIGHT through their product only (R27, R72 corner case d): with other dimensions
of the same pixel count the outcome is the same, byte by byte. -/
def Obligations.OnlyPixelCountMatters : Prop :=
  ∀ (s : State) (w h : BitVec 16) (i : Instr), w.toNat * h.toNat = npix s →
    ∃ t u, exec i s = .next t ∧ exec i { s with width := w, height := h } = .next u ∧
      u.status = t.status ∧ u.olen = t.olen ∧ u.corrected = t.corrected ∧ (∀ sp, SameBytes t u sp) ∧
      u.width = w ∧ u.height = h

/-- ENCODE run twice with the same inputs gives the same buffer as run once (R72 corner case e). -/
def Obligations.EncodeIsIdempotent : Prop :=
  ∀ s t : State, exec .encode s = .next t → t.status = .ok →
    ∃ u, exec .encode t = .next u ∧ u.status = .ok ∧ ∀ sp, SameBytes t u sp

/-- DECODE reads nothing but the least significant bits of the colour bytes, the key, KLEN and the pixel count (R33,
R73): two states that agree on these give the same status, OLEN, CORRECTED and message, whatever their alpha bytes,
`MSG`, MLEN, `OUT` and output registers hold. -/
def Obligations.DecodeReadsOnly : Prop :=
  ∀ s s' : State, s'.params = s.params → npix s' = npix s → SameKey s s' →
    (∀ p ch, p < npix s → ch < 3 → lsb s' p ch = lsb s p ch) →
    ∃ t t', exec .decode s = .next t ∧ exec .decode s' = .next t' ∧
      t'.status = t.status ∧ t'.olen = t.olen ∧ t'.corrected = t.corrected ∧
      ∀ a, a < t.olen.toNat → memRead t' .out a = memRead t .out a

/-- A buffer of exactly 32 pixels never decodes, whatever it holds (R73 corner case d): CorruptHeader. -/
def Obligations.ThirtyTwoPixels : Prop :=
  ∀ s : State, fitsDecode s = true → npix s = 32 → exec .decode s = .next (raise .corruptHeader s)

/-- R95: an empty message encodes but does not decode: CorruptHeader. -/
def Obligations.EmptyMessage : Prop :=
  ∀ s : State, fitsEncode s = true → s.mlen = 0 → 32 ≤ npix s →
    ∃ t, exec .encode s = .next t ∧ t.status = .ok ∧
      exec .decode t = .next { t with status := .failed .corruptHeader, olen := 0, corrected := 0 }

/-- R98: where its extents fit, ENCODE accepts a message exactly when the buffer has 32 pixels and the message has at most
`(NPIX - 32) div 8` bytes; a DECODE never returns more than that many. -/
def Obligations.LargestMessage : Prop :=
  (∀ s : State, fitsEncode s = true → ∃ t, exec .encode s = .next t ∧
    (t.status = .ok ↔ 32 ≤ npix s ∧ s.mlen.toNat ≤ (npix s - 32) / 8)) ∧
  (∀ s t : State, exec .decode s = .next t → t.olen.toNat ≤ (npix s - 32) / 8)

/-! ### ENCODE and DECODE together -/

/-- The round trip (R75 a): after a successful ENCODE of a message of one byte or more, if the dimensions, the key and the
payload's least significant bits are as ENCODE left them, DECODE gives the message back with no correction. -/
def Obligations.RoundTrip : Prop :=
  ∀ s t u : State, exec .encode s = .next t → t.status = .ok → 1 ≤ s.mlen.toNat →
    SameSetup t u → SameKey t u → SamePayload t u (32 + 8 * s.mlen.toNat) →
    ∃ v, exec .decode u = .next v ∧ v.status = .ok ∧ v.olen = s.mlen ∧ v.corrected = 0 ∧
      ∀ i, i < s.mlen.toNat → memRead v .out i = memRead s .msg i

/-- One flipped bit a pixel is corrected and counted (R75 b): with at most one flipped least significant bit in each
payload pixel, the message is the same and CORRECTED is the number of pixels with a flip. -/
def Obligations.SingleFlipsAreCorrected : Prop :=
  ∀ s t u : State, exec .encode s = .next t → t.status = .ok → 1 ≤ s.mlen.toNat →
    SameSetup t u → SameKey t u → (∀ p, p < 32 + 8 * s.mlen.toNat → flips t u p ≤ 1) →
    ∃ v, exec .decode u = .next v ∧ v.status = .ok ∧ v.olen = s.mlen ∧
      v.corrected.toNat = (List.range (32 + 8 * s.mlen.toNat)).countP (fun p => flips t u p == 1) ∧
      ∀ i, i < s.mlen.toNat → memRead v .out i = memRead s .msg i

/-- Two or three flipped bits in one body pixel (R75 c, R88 a): one bit of one message byte is wrong, no failure is raised,
and CORRECTED counts the pixel when two bits flipped and not when three did. -/
def Obligations.TwoFlipsAreSilent : Prop :=
  ∀ (s t u : State) (p0 : Nat), exec .encode s = .next t → t.status = .ok →
    32 ≤ p0 → p0 < 32 + 8 * s.mlen.toNat → 2 ≤ flips t u p0 →
    SameSetup t u → SameKey t u → (∀ p, p < 32 + 8 * s.mlen.toNat → p ≠ p0 → flips t u p = 0) →
    ∃ v, exec .decode u = .next v ∧ v.status = .ok ∧ v.olen = s.mlen ∧
      v.corrected = (if flips t u p0 = 2 then 1 else 0) ∧
      ∀ i, i < s.mlen.toNat → memRead v .out i =
        if i = (p0 - 32) / 8 then memRead s .msg i ^^^ BitVec.twoPow 8 (7 - (p0 - 32) % 8) else memRead s .msg i

/-- A zeroed header region is CorruptHeader (R75 d). -/
def Obligations.ZeroedHeader : Prop :=
  ∀ s : State, fitsDecode s = true → 32 ≤ npix s → (∀ p ch, p < 32 → ch < 3 → lsb s p ch = false) →
    exec .decode s = .next (raise .corruptHeader s)

/-- A wrong key never fails (R75 e, R88 b): DECODE succeeds with the right length, no correction, and every byte the message
byte XORed with both keys' bytes. -/
def Obligations.WrongKey : Prop :=
  ∀ s t u : State, exec .encode s = .next t → t.status = .ok → 1 ≤ s.mlen.toNat →
    SameSetup t u → u.klen.toNat ≤ u.params.keyBytes → SamePayload t u (32 + 8 * s.mlen.toNat) →
    ∃ v, exec .decode u = .next v ∧ v.status = .ok ∧ v.olen = s.mlen ∧ v.corrected = 0 ∧
      ∀ i, i < s.mlen.toNat → memRead v .out i = memRead s .msg i ^^^ keyTerm s i ^^^ keyTerm u i

/-! ### Invariants -/

/-- Every step keeps the memories in canonical form and within their sizes, and never changes the sizes (R4, R21, R23,
R39). -/
def Obligations.MemoryInvariantKept : Prop :=
  ∀ s t : State, s.MemInv → step s = .next t → t.MemInv ∧ t.params = s.params

/-- Every step keeps the output registers consistent (R16, R17, R81, R87): code 4 never in STATUS, a failed command's OLEN
and CORRECTED 0, OLEN within `OUT`, CORRECTED at most `32 + 8*OLEN`. The sizes meeting R4 is the premise that makes
every decoded message fit `OUT`. -/
def Obligations.OutputInvariantKept : Prop :=
  ∀ s t : State, s.params.wf = true → s.OutInv → step s = .next t → t.OutInv

/-- Both invariants hold after reset, for every choice of sizes that meets R4, and of the reset machine. -/
def Obligations.InvariantsAtReset : Prop :=
  (∀ p : Params, p.wf = true → (State.initial p).MemInv ∧ (State.initial p).OutInv) ∧
  State.reset.MemInv ∧ State.reset.OutInv

/-- Both invariants hold in every state a machine with admissible sizes comes to, whatever its host does. -/
def Obligations.ReachableStatesAreGood : Prop :=
  ∀ p : Params, p.wf = true → ∀ s : State, Reachable p s → s.MemInv ∧ s.OutInv ∧ s.params = p

/-- The only step that is no next state is a host's byte access at an offset that is no address of its space: no command,
no register access and no reset stops the machine (R25, R81, R99; 93_implementation_defined.md U14). -/
def Obligations.OnlyOutsideAccessStops : Prop :=
  ∀ s : State, safeOutcome (step s) = false ↔
    ∃ sp a rest, s.params.size sp ≤ a ∧
      ((∃ v, s.pending = .storeByte sp a v :: rest) ∨ s.pending = .loadByte sp a :: rest)
end

