-- ==== Sys2Proof/Laws/State.lean ====
section
/-! SUPPORT. The small laws of the state: one per field per update, the update's own field among them, and the laws of
one byte of memory. Later proofs cite these and unfold no record update. -/

namespace Sys2Proof.Machine

section SetMem
variable (s : State) (sp : Space) (m : Memory)

@[simp] theorem setMem_status : (s.setMem sp m).status = s.status := by cases sp <;> rfl
@[simp] theorem setMem_width : (s.setMem sp m).width = s.width := by cases sp <;> rfl
@[simp] theorem setMem_height : (s.setMem sp m).height = s.height := by cases sp <;> rfl
@[simp] theorem setMem_mlen : (s.setMem sp m).mlen = s.mlen := by cases sp <;> rfl
@[simp] theorem setMem_klen : (s.setMem sp m).klen = s.klen := by cases sp <;> rfl
@[simp] theorem setMem_olen : (s.setMem sp m).olen = s.olen := by cases sp <;> rfl
@[simp] theorem setMem_corrected : (s.setMem sp m).corrected = s.corrected := by cases sp <;> rfl
@[simp] theorem setMem_params : (s.setMem sp m).params = s.params := by cases sp <;> rfl
@[simp] theorem setMem_draw : (s.setMem sp m).draw = s.draw := by cases sp <;> rfl
@[simp] theorem setMem_pending : (s.setMem sp m).pending = s.pending := by cases sp <;> rfl
@[simp] theorem setMem_replies : (s.setMem sp m).replies = s.replies := by cases sp <;> rfl
@[simp] theorem mem_setMem_same : (s.setMem sp m).mem sp = m := by cases sp <;> rfl

theorem mem_setMem_ne {sp' : Space} (h : sp' ≠ sp) : (s.setMem sp m).mem sp' = s.mem sp' := by
  cases sp <;> cases sp' <;> first | rfl | exact absurd rfl h

end SetMem

section MemWrite
variable (s : State) (sp : Space) (a : Nat) (v : Byte)

@[simp] theorem memWrite_status : (memWrite s sp a v).status = s.status := setMem_status ..
@[simp] theorem memWrite_width : (memWrite s sp a v).width = s.width := setMem_width ..
@[simp] theorem memWrite_height : (memWrite s sp a v).height = s.height := setMem_height ..
@[simp] theorem memWrite_mlen : (memWrite s sp a v).mlen = s.mlen := setMem_mlen ..
@[simp] theorem memWrite_klen : (memWrite s sp a v).klen = s.klen := setMem_klen ..
@[simp] theorem memWrite_olen : (memWrite s sp a v).olen = s.olen := setMem_olen ..
@[simp] theorem memWrite_corrected : (memWrite s sp a v).corrected = s.corrected := setMem_corrected ..
@[simp] theorem memWrite_params : (memWrite s sp a v).params = s.params := setMem_params ..
@[simp] theorem memWrite_draw : (memWrite s sp a v).draw = s.draw := setMem_draw ..
@[simp] theorem memWrite_pending : (memWrite s sp a v).pending = s.pending := setMem_pending ..
@[simp] theorem memWrite_replies : (memWrite s sp a v).replies = s.replies := setMem_replies ..

end MemWrite

section Raise
variable (f : Failure) (s : State)

@[simp] theorem raise_status : (raise f s).status = .failed f := rfl
@[simp] theorem raise_width : (raise f s).width = s.width := rfl
@[simp] theorem raise_height : (raise f s).height = s.height := rfl
@[simp] theorem raise_mlen : (raise f s).mlen = s.mlen := rfl
@[simp] theorem raise_klen : (raise f s).klen = s.klen := rfl
@[simp] theorem raise_olen : (raise f s).olen = 0 := rfl
@[simp] theorem raise_corrected : (raise f s).corrected = 0 := rfl
@[simp] theorem raise_mem (sp : Space) : (raise f s).mem sp = s.mem sp := by cases sp <;> rfl
@[simp] theorem raise_params : (raise f s).params = s.params := rfl
@[simp] theorem raise_draw : (raise f s).draw = s.draw := rfl
@[simp] theorem raise_pending : (raise f s).pending = s.pending := rfl
@[simp] theorem raise_replies : (raise f s).replies = s.replies := rfl
@[simp] theorem memRead_raise (sp : Space) (a : Nat) : memRead (raise f s) sp a = memRead s sp a := by
  cases sp <;> rfl

end Raise

section Succeed
variable (n c : Nat) (s : State)

@[simp] theorem succeed_status : (succeed n c s).status = .ok := rfl
@[simp] theorem succeed_width : (succeed n c s).width = s.width := rfl
@[simp] theorem succeed_height : (succeed n c s).height = s.height := rfl
@[simp] theorem succeed_mlen : (succeed n c s).mlen = s.mlen := rfl
@[simp] theorem succeed_klen : (succeed n c s).klen = s.klen := rfl
@[simp] theorem succeed_olen : (succeed n c s).olen = BitVec.ofNat 32 n := rfl
@[simp] theorem succeed_corrected : (succeed n c s).corrected = BitVec.ofNat 32 c := rfl
@[simp] theorem succeed_mem (sp : Space) : (succeed n c s).mem sp = s.mem sp := by cases sp <;> rfl
@[simp] theorem succeed_params : (succeed n c s).params = s.params := rfl
@[simp] theorem succeed_draw : (succeed n c s).draw = s.draw := rfl
@[simp] theorem succeed_pending : (succeed n c s).pending = s.pending := rfl
@[simp] theorem succeed_replies : (succeed n c s).replies = s.replies := rfl
@[simp] theorem memRead_succeed (sp : Space) (a : Nat) : memRead (succeed n c s) sp a = memRead s sp a := by
  cases sp <;> rfl

end Succeed

section Reply
variable (r : Reply) (s : State)

@[simp] theorem reply_status : (reply r s).status = s.status := rfl
@[simp] theorem reply_width : (reply r s).width = s.width := rfl
@[simp] theorem reply_height : (reply r s).height = s.height := rfl
@[simp] theorem reply_mlen : (reply r s).mlen = s.mlen := rfl
@[simp] theorem reply_klen : (reply r s).klen = s.klen := rfl
@[simp] theorem reply_olen : (reply r s).olen = s.olen := rfl
@[simp] theorem reply_corrected : (reply r s).corrected = s.corrected := rfl
@[simp] theorem reply_mem (sp : Space) : (reply r s).mem sp = s.mem sp := by cases sp <;> rfl
@[simp] theorem reply_params : (reply r s).params = s.params := rfl
@[simp] theorem reply_draw : (reply r s).draw = s.draw := rfl
@[simp] theorem reply_pending : (reply r s).pending = s.pending := rfl
@[simp] theorem reply_replies : (reply r s).replies = r :: s.replies := rfl

end Reply

section Pending
variable (s : State) (l : List Access)

@[simp] theorem mem_withPending (sp : Space) : State.mem { s with pending := l } sp = s.mem sp := by
  cases sp <;> rfl
@[simp] theorem memRead_withPending (sp : Space) (a : Nat) :
    memRead { s with pending := l } sp a = memRead s sp a := by
  cases sp <;> rfl

end Pending

section RegWrite
variable (s : State) (v : Word) (r : Reg)

@[simp] theorem regWrite_status : (regWrite s v r).status = s.status := by cases r <;> rfl
@[simp] theorem regWrite_olen : (regWrite s v r).olen = s.olen := by cases r <;> rfl
@[simp] theorem regWrite_corrected : (regWrite s v r).corrected = s.corrected := by cases r <;> rfl
@[simp] theorem regWrite_mem (sp : Space) : (regWrite s v r).mem sp = s.mem sp := by cases r <;> cases sp <;> rfl
@[simp] theorem regWrite_params : (regWrite s v r).params = s.params := by cases r <;> rfl
@[simp] theorem regWrite_draw : (regWrite s v r).draw = s.draw := by cases r <;> rfl
@[simp] theorem regWrite_pending : (regWrite s v r).pending = s.pending := by cases r <;> rfl
@[simp] theorem regWrite_replies : (regWrite s v r).replies = s.replies := by cases r <;> rfl
@[simp] theorem regWrite_width : (regWrite s v .width).width = v.setWidth 16 := rfl
@[simp] theorem regWrite_height : (regWrite s v .height).height = v.setWidth 16 := rfl
@[simp] theorem regWrite_mlen : (regWrite s v .mlen).mlen = v := rfl
@[simp] theorem regWrite_klen : (regWrite s v .klen).klen = v := rfl

end RegWrite

section HostRegWrite
variable (s : State) (n o : Nat) (v : Word)

@[simp] theorem hostRegWrite_status : (hostRegWrite s n o v).status = s.status := by
  unfold hostRegWrite; split <;> simp
@[simp] theorem hostRegWrite_olen : (hostRegWrite s n o v).olen = s.olen := by
  unfold hostRegWrite; split <;> simp
@[simp] theorem hostRegWrite_corrected : (hostRegWrite s n o v).corrected = s.corrected := by
  unfold hostRegWrite; split <;> simp
@[simp] theorem hostRegWrite_mem (sp : Space) : (hostRegWrite s n o v).mem sp = s.mem sp := by
  unfold hostRegWrite; split <;> simp
@[simp] theorem hostRegWrite_params : (hostRegWrite s n o v).params = s.params := by
  unfold hostRegWrite; split <;> simp
@[simp] theorem hostRegWrite_draw : (hostRegWrite s n o v).draw = s.draw := by
  unfold hostRegWrite; split <;> simp
@[simp] theorem hostRegWrite_pending : (hostRegWrite s n o v).pending = s.pending := by
  unfold hostRegWrite; split <;> simp
@[simp] theorem hostRegWrite_replies : (hostRegWrite s n o v).replies = s.replies := by
  unfold hostRegWrite; split <;> simp

end HostRegWrite

section PlatformReset
variable (s : State)

@[simp] theorem platformReset_status : (platformReset s).status = .ok := rfl
@[simp] theorem platformReset_width : (platformReset s).width = 0 := rfl
@[simp] theorem platformReset_height : (platformReset s).height = 0 := rfl
@[simp] theorem platformReset_mlen : (platformReset s).mlen = 0 := rfl
@[simp] theorem platformReset_klen : (platformReset s).klen = 0 := rfl
@[simp] theorem platformReset_olen : (platformReset s).olen = 0 := rfl
@[simp] theorem platformReset_corrected : (platformReset s).corrected = 0 := rfl
@[simp] theorem platformReset_mem (sp : Space) : (platformReset s).mem sp = [] := by cases sp <;> rfl
@[simp] theorem platformReset_params : (platformReset s).params = s.params := rfl
@[simp] theorem platformReset_draw : (platformReset s).draw = s.draw + 1 := rfl
@[simp] theorem platformReset_pending : (platformReset s).pending = s.pending := rfl
@[simp] theorem platformReset_replies : (platformReset s).replies = s.replies := rfl

end PlatformReset

end Sys2Proof.Machine
end

