-- ==== Sys2Proof/Laws/Memory.lean ====
section
/-! SUPPORT. The laws of one byte memory and of the operations that write memory: a read after a write, what a write
leaves alone, and that every write keeps the canonical form and the bounds. -/

namespace Sys2Proof.Machine

@[simp] theorem get?_put_same (m : Memory) (a : Nat) (v : Byte) : (m.put a v).get? a = some v := by
  induction m with
  | nil => simp [Memory.put, Memory.get?]
  | cons c m ih =>
    obtain ⟨k, x⟩ := c
    simp only [Memory.put]
    split
    · simp [Memory.get?]
    · split
      · simp [Memory.get?]
      · rename_i h
        simp [Memory.get?, h, ih]

theorem get?_put_ne (m : Memory) {a b : Nat} (v : Byte) (h : b ≠ a) : (m.put a v).get? b = m.get? b := by
  induction m with
  | nil => simp [Memory.put, Memory.get?, h]
  | cons c m ih =>
    obtain ⟨k, x⟩ := c
    simp only [Memory.put]
    split
    · simp [Memory.get?, h]
    · split
      · rename_i hk
        simp [Memory.get?, ← hk, h]
      · simp [Memory.get?, ih]

/-- Every listed offset after a write was listed before or is the one written. -/
theorem mem_put {m : Memory} {a : Nat} {v : Byte} {c : Host.Cell} (h : c ∈ m.put a v) : c = (a, v) ∨ c ∈ m := by
  induction m with
  | nil => simpa [Memory.put] using h
  | cons d m ih =>
    obtain ⟨k, x⟩ := d
    simp only [Memory.put] at h
    split at h
    · simpa using h
    · split at h
      · rcases List.mem_cons.mp h with h | h
        · exact .inl h
        · exact .inr (List.mem_cons_of_mem _ h)
      · rcases List.mem_cons.mp h with h | h
        · exact .inr (by simp [h])
        · exact (ih h).imp_right (List.mem_cons_of_mem _)

theorem put_wf {m : Memory} (a : Nat) (v : Byte) (h : Memory.wf m) : Memory.wf (Memory.put m a v) := by
  induction m with
  | nil => simp [Memory.put]
  | cons c m ih =>
    obtain ⟨k, x⟩ := c
    have hrest : Memory.wf m := (List.pairwise_cons.mp h).2
    have hhead : ∀ d ∈ m, k < d.1 := (List.pairwise_cons.mp h).1
    simp only [Memory.put]
    split
    · rename_i hk
      refine List.pairwise_cons.mpr ⟨fun d hd => ?_, h⟩
      rcases List.mem_cons.mp hd with rfl | hd
      · exact hk
      · exact lt_trans hk (hhead d hd)
    · split
      · rename_i hk
        subst hk
        exact List.pairwise_cons.mpr ⟨hhead, hrest⟩
      · refine List.pairwise_cons.mpr ⟨fun d hd => ?_, ih hrest⟩
        rcases mem_put hd with rfl | hd
        · show k < a
          omega
        · exact hhead d hd

/-- A read after a write, of any byte of any space (R35). -/
theorem memRead_memWrite (s : State) (sp sp' : Space) (a b : Nat) (v : Byte) :
    memRead (memWrite s sp a v) sp' b = if sp' = sp ∧ b = a then v else memRead s sp' b := by
  unfold memRead memWrite
  by_cases hsp : sp' = sp
  · subst hsp
    by_cases hb : b = a
    · simp [hb]
    · simp [hb, get?_put_ne]
  · simp [hsp, mem_setMem_ne]

@[simp] theorem memRead_memWrite_same (s : State) (sp : Space) (a : Nat) (v : Byte) :
    memRead (memWrite s sp a v) sp a = v := by simp [memRead_memWrite]

/-- A write within the bounds keeps the invariant of the memories. -/
theorem memWrite_memInv {s : State} {sp : Space} {a : Nat} (v : Byte) (h : s.MemInv) (ha : a < s.params.size sp) :
    (memWrite s sp a v).MemInv where
  sizes := by simpa using h.sizes
  canonical sp' := by
    by_cases hsp : sp' = sp
    · subst hsp
      simpa [memWrite] using put_wf a v (h.canonical sp')
    · simpa [memWrite, mem_setMem_ne _ _ _ hsp] using h.canonical sp'
  inRange sp' c hc := by
    rw [memWrite_params]
    by_cases hsp : sp' = sp
    · subst hsp
      simp only [memWrite, mem_setMem_same] at hc
      rcases mem_put hc with rfl | hc
      · exact ha
      · exact h.inRange sp' c hc
    · simp only [memWrite, mem_setMem_ne _ _ _ hsp] at hc
      exact h.inRange sp' c hc

/-- The invariant of the memories looks at the memories and their sizes only. -/
theorem MemInv.of_mem {s t : State} (h : s.MemInv) (hp : t.params = s.params) (hm : ∀ sp, t.mem sp = s.mem sp) :
    t.MemInv where
  sizes := by rw [hp]; exact h.sizes
  canonical sp := by rw [hm]; exact h.canonical sp
  inRange sp c hc := by rw [hp]; exact h.inRange sp c (hm sp ▸ hc)

theorem raise_memInv {s : State} (f : Failure) (h : s.MemInv) : (raise f s).MemInv :=
  MemInv.of_mem h rfl (raise_mem f s)

theorem succeed_memInv {s : State} (n c : Nat) (h : s.MemInv) : (succeed n c s).MemInv :=
  MemInv.of_mem h rfl (succeed_mem n c s)

theorem platformReset_memInv {s : State} (h : s.MemInv) : (platformReset s).MemInv where
  sizes := h.sizes
  canonical sp := by simp
  inRange sp c hc := by simp at hc

/-! ### A property kept by one write is kept by a run of writes -/

/-- What every single write within a set of bytes keeps, `writeBytes` keeps. -/
theorem writeBytes_keeps {P : State → Prop} (sp : Space) (a : Nat) (bs : List Byte) (s : State)
    (hw : ∀ (t : State) (b : Nat) (v : Byte), a ≤ b → b < a + bs.length → P t → P (memWrite t sp b v)) (hs : P s) :
    P (writeBytes sp a bs s) := by
  induction bs generalizing a s with
  | nil => exact hs
  | cons v bs ih =>
    refine ih (a + 1) _ (fun t b v h1 h2 => hw t b v (by omega) (by simp; omega)) ?_
    exact hw s a v le_rfl (by simp) hs

@[simp] theorem readBytes_length (s : State) (sp : Space) (n : Nat) : (readBytes s sp n).length = n := by
  simp [readBytes]

@[simp] theorem readBytes_getElem (s : State) (sp : Space) (n i : Nat) (h : i < (readBytes s sp n).length) :
    (readBytes s sp n)[i] = memRead s sp i := by
  simp [readBytes]

/-- Everything `writeBytes` does to memory. -/
theorem memRead_writeBytes (sp sp' : Space) (a : Nat) (bs : List Byte) (s : State) (b : Nat) :
    memRead (writeBytes sp a bs s) sp' b =
      if sp' = sp ∧ a ≤ b ∧ b < a + bs.length then bs.getD (b - a) 0 else memRead s sp' b := by
  induction bs generalizing a s with
  | nil =>
    rw [if_neg (by simp only [List.length_nil]; omega)]
    rfl
  | cons v bs ih =>
    rw [writeBytes, ih, memRead_memWrite]
    by_cases hsp : sp' = sp
    · rcases Nat.lt_trichotomy b a with h | h | h
      · have h1 : ¬(a + 1 ≤ b) := by omega
        have h2 : ¬(a ≤ b) := by omega
        simp [h1, h2, Nat.ne_of_lt h]
      · subst h
        simp [hsp]
      · have hi : b - a = (b - (a + 1)) + 1 := by omega
        have h3 : (a + 1 ≤ b ∧ b < a + 1 + bs.length) ↔ (a ≤ b ∧ b < a + (v :: bs).length) := by
          simp only [List.length_cons]; omega
        simp only [hsp, true_and, h3, Nat.ne_of_gt h, if_false, hi, List.getD_cons_succ]
    · simp [hsp]

section WriteBytes
variable (sp : Space) (a : Nat) (bs : List Byte) (s : State)

@[simp] theorem writeBytes_status : (writeBytes sp a bs s).status = s.status :=
  writeBytes_keeps (P := fun t => t.status = s.status) sp a bs s (fun _ _ _ _ _ h => by simpa using h) rfl
@[simp] theorem writeBytes_width : (writeBytes sp a bs s).width = s.width :=
  writeBytes_keeps (P := fun t => t.width = s.width) sp a bs s (fun _ _ _ _ _ h => by simpa using h) rfl
@[simp] theorem writeBytes_height : (writeBytes sp a bs s).height = s.height :=
  writeBytes_keeps (P := fun t => t.height = s.height) sp a bs s (fun _ _ _ _ _ h => by simpa using h) rfl
@[simp] theorem writeBytes_mlen : (writeBytes sp a bs s).mlen = s.mlen :=
  writeBytes_keeps (P := fun t => t.mlen = s.mlen) sp a bs s (fun _ _ _ _ _ h => by simpa using h) rfl
@[simp] theorem writeBytes_klen : (writeBytes sp a bs s).klen = s.klen :=
  writeBytes_keeps (P := fun t => t.klen = s.klen) sp a bs s (fun _ _ _ _ _ h => by simpa using h) rfl
@[simp] theorem writeBytes_params : (writeBytes sp a bs s).params = s.params :=
  writeBytes_keeps (P := fun t => t.params = s.params) sp a bs s (fun _ _ _ _ _ h => by simpa using h) rfl
@[simp] theorem writeBytes_draw : (writeBytes sp a bs s).draw = s.draw :=
  writeBytes_keeps (P := fun t => t.draw = s.draw) sp a bs s (fun _ _ _ _ _ h => by simpa using h) rfl
@[simp] theorem writeBytes_pending : (writeBytes sp a bs s).pending = s.pending :=
  writeBytes_keeps (P := fun t => t.pending = s.pending) sp a bs s (fun _ _ _ _ _ h => by simpa using h) rfl
@[simp] theorem writeBytes_replies : (writeBytes sp a bs s).replies = s.replies :=
  writeBytes_keeps (P := fun t => t.replies = s.replies) sp a bs s (fun _ _ _ _ _ h => by simpa using h) rfl

end WriteBytes

/-- Writes within the bounds keep the invariant of the memories. -/
theorem writeBytes_memInv {s : State} {sp : Space} {a : Nat} {bs : List Byte} (h : s.MemInv)
    (hb : a + bs.length ≤ s.params.size sp) : (writeBytes sp a bs s).MemInv :=
  (writeBytes_keeps (P := fun t => t.params = s.params ∧ t.MemInv) sp a bs s
    (fun t b v _ h2 ht => ⟨by simpa using ht.1, memWrite_memInv v ht.2 (by rw [ht.1]; omega)⟩) ⟨rfl, h⟩).2

end Sys2Proof.Machine
end

