-- ==== Sys2Proof/Laws/Units.lean ====
section
/-! SUPPORT. One law for each unit operation of the cipher, the framer and the FEC: the length of what it gives and each
element of it. -/

namespace Sys2Proof.Machine

/-! ### XORSTREAM -/

@[simp] theorem xorStream_length (m k : List Byte) : (xorStream m k).length = m.length := by
  unfold xorStream; split <;> simp

/-- Every byte of XORSTREAM (R50, R51): the key is read at `i mod len(k)`, and an empty key reads as 0. -/
theorem xorStream_getElem (m k : List Byte) (i : Nat) (h : i < (xorStream m k).length) :
    (xorStream m k)[i] = (m[i]'(by simpa using h)) ^^^ (k.getD (i % k.length) 0) := by
  cases k with
  | nil => simp [xorStream]
  | cons a k => simp [xorStream]

/-! ### FRAMER -/

@[simp] theorem byteBits_length (b : Byte) : (byteBits b).length = 8 := by simp [byteBits]

@[simp] theorem toBits_nil : toBits [] = [] := rfl

@[simp] theorem toBits_cons (b : Byte) (c : List Byte) : toBits (b :: c) = byteBits b ++ toBits c := by
  simp [toBits]

@[simp] theorem toBits_length (c : List Byte) : (toBits c).length = 8 * c.length := by
  induction c with
  | nil => rfl
  | cons b c ih => simp [ih]; omega

/-- Every bit of TOBITS (R54). -/
theorem toBits_getElem (m : List Byte) (n : Nat) (h : n < (toBits m).length) :
    (toBits m)[n] = (m[n / 8]'(by simp at h; omega)).getLsbD (7 - n % 8) := by
  induction m generalizing n with
  | nil => simp at h
  | cons b m ih =>
    simp only [toBits_cons]
    by_cases hn : n < 8
    · rw [List.getElem_append_left (by simpa using hn)]
      have h0 : n / 8 = 0 := by omega
      have h1 : n % 8 = n := by omega
      simp [byteBits, h0, h1]
    · rw [List.getElem_append_right (by simp; omega)]
      simp only [byteBits_length]
      rw [ih (n - 8) (by simp at h ⊢; omega)]
      have h0 : n / 8 = (n - 8) / 8 + 1 := by omega
      have h1 : (n - 8) % 8 = n % 8 := by omega
      simp [h0, h1]

@[simp] theorem buildHdr_length (L : Word) : (buildHdr L).length = 32 := by simp [buildHdr]

/-- Every bit of BUILDHDR (R56). -/
@[simp] theorem buildHdr_getElem (L : Word) (q : Nat) (h : q < (buildHdr L).length) :
    (buildHdr L)[q] = L.getLsbD (31 - q) := by simp [buildHdr]

@[simp] theorem frame_length (c : List Byte) : (frame c).length = 32 + 8 * c.length := by simp [frame]

/-- The number a bit sequence spells, with an offset already accumulated. -/
theorem bitsVal_foldl (s : List Bool) (n : Nat) :
    s.foldl (fun n b => 2 * n + b.toNat) n = n * 2 ^ s.length + bitsVal s := by
  unfold bitsVal
  induction s generalizing n with
  | nil => simp
  | cons b s ih =>
    simp only [List.foldl_cons, List.length_cons]
    rw [ih, ih (2 * 0 + b.toNat)]
    ring

theorem bitsVal_cons (b : Bool) (s : List Bool) : bitsVal (b :: s) = b.toNat * 2 ^ s.length + bitsVal s := by
  have := bitsVal_foldl s (2 * 0 + b.toNat)
  simpa [bitsVal] using this

theorem bitsVal_lt (s : List Bool) : bitsVal s < 2 ^ s.length := by
  induction s with
  | nil => simp [bitsVal]
  | cons b s ih =>
    rw [bitsVal_cons, List.length_cons, pow_succ]
    have : b.toNat ≤ 1 := Bool.toNat_le b
    nlinarith [Nat.two_pow_pos s.length]

/-- The sum form of R55 and R57. -/
theorem bitsVal_eq_sum (s : List Bool) :
    bitsVal s = ((List.range s.length).map (fun q => (s.getD q false).toNat * 2 ^ (s.length - 1 - q))).sum := by
  induction s with
  | nil => rfl
  | cons b s ih =>
    rw [bitsVal_cons, ih, List.length_cons, List.range_succ_eq_map, List.map_cons, List.map_map, List.sum_cons]
    have h : ∀ q, s.length - 1 - q = s.length - (q + 1) := fun q => by omega
    simp [Function.comp_def, h]

/-- A bit sequence is determined by the number it spells. -/
theorem bitsVal_testBit (s : List Bool) (q : Nat) (h : q < s.length) :
    (bitsVal s).testBit (s.length - 1 - q) = s[q] := by
  induction s generalizing q with
  | nil => simp at h
  | cons b s ih =>
    rw [bitsVal_cons]
    have hlt := bitsVal_lt s
    cases q with
    | zero =>
      simp only [List.length_cons, Nat.add_sub_cancel, Nat.sub_zero, List.getElem_cons_zero]
      rw [Nat.mul_comm, Nat.testBit_two_pow_mul_add _ hlt]
      cases b <;> simp
    | succ q =>
      have hq : q < s.length := by simpa using h
      have : (b :: s).length - 1 - (q + 1) = s.length - 1 - q := by simp; omega
      rw [this, Nat.mul_comm, Nat.testBit_two_pow_mul_add _ hlt, if_pos (by omega), ih q hq]
      simp

@[simp] theorem fromBits_length (s : List Bool) : (fromBits s).length = s.length / 8 := by
  fun_induction fromBits s with
  | case1 b0 b1 b2 b3 b4 b5 b6 b7 rest ih => simp [ih]; omega
  | case2 s h =>
    have : s.length < 8 := by
      by_contra hl
      match s, h, hl with
      | b0 :: b1 :: b2 :: b3 :: b4 :: b5 :: b6 :: b7 :: rest, h, _ => exact h _ _ _ _ _ _ _ _ _ rfl
      | [], _, hl | [_], _, hl | [_, _], _, hl | [_, _, _], _, hl | [_, _, _, _], _, hl
      | [_, _, _, _, _], _, hl | [_, _, _, _, _, _], _, hl | [_, _, _, _, _, _, _], _, hl => simp at hl
    simp; omega

/-- The defining equation of FROMBITS on a whole group: eight bits in front become one byte in front (R55). -/
theorem fromBits_append (g s : List Bool) (h : g.length = 8) :
    fromBits (g ++ s) = BitVec.ofNat 8 (bitsVal g) :: fromBits s := by
  match g, h with
  | [b0, b1, b2, b3, b4, b5, b6, b7], _ => rfl

theorem fromBits_of_short (s : List Bool) (h : s.length < 8) : fromBits s = [] :=
  List.length_eq_zero_iff.mp (by rw [fromBits_length]; omega)

/-- Every byte of FROMBITS is the number its group of eight spells (R55). -/
theorem fromBits_getElem (s : List Bool) (i : Nat) (h : i < (fromBits s).length) :
    (fromBits s)[i] = BitVec.ofNat 8 (bitsVal ((s.drop (8 * i)).take 8)) := by
  induction i generalizing s with
  | zero =>
    have h8 : 8 ≤ s.length := by simp at h; omega
    have hs : s = s.take 8 ++ s.drop 8 := (List.take_append_drop 8 s).symm
    have ht : (s.take 8).length = 8 := by simp [h8]
    have := fromBits_append (s.take 8) (s.drop 8) ht
    rw [← hs] at this
    simp [this]
  | succ i ih =>
    have h8 : 8 ≤ s.length := by simp at h; omega
    have hs : s = s.take 8 ++ s.drop 8 := (List.take_append_drop 8 s).symm
    have ht : (s.take 8).length = 8 := by simp [h8]
    have hf := fromBits_append (s.take 8) (s.drop 8) ht
    rw [← hs] at hf
    simp only [hf, List.getElem_cons_succ]
    rw [ih (s.drop 8) (by simp at h ⊢; omega), List.drop_drop]
    congr 4
    omega

/-! ### FEC -/

@[simp] theorem fecEnc_nil : fecEnc [] = [] := rfl

@[simp] theorem fecEnc_cons (b : Bool) (s : List Bool) : fecEnc (b :: s) = b :: b :: b :: fecEnc s := by
  simp [fecEnc]

@[simp] theorem fecEnc_length (s : List Bool) : (fecEnc s).length = 3 * s.length := by
  induction s with
  | nil => rfl
  | cons b s ih => simp [ih]; omega

/-- Every bit of FECENC (R60). -/
theorem fecEnc_getElem (s : List Bool) (n : Nat) (h : n < (fecEnc s).length) :
    (fecEnc s)[n] = s[n / 3]'(by simp at h; omega) := by
  induction s generalizing n with
  | nil => simp at h
  | cons b s ih =>
    match n, h with
    | 0, _ | 1, _ | 2, _ => simp
    | n + 3, h =>
      have : (n + 3) / 3 = n / 3 + 1 := by omega
      simp [this, ih]

@[simp] theorem fecDec_nil : fecDec [] = ([], 0) := rfl

@[simp] theorem fecDec_cons (a b c : Bool) (t : List Bool) :
    fecDec (a :: b :: c :: t) = (groupBit a b c :: (fecDec t).1, groupCount a b c + (fecDec t).2) := rfl

theorem fecDec_of_short (t : List Bool) (h : t.length < 3) : fecDec t = ([], 0) := by
  match t, h with
  | [], _ | [_], _ | [_, _], _ => rfl

/-- Everything FECDEC gives (R61): one bit a group, and the number of groups that are not unanimous. -/
theorem fecDec_eq (t : List Bool) :
    fecDec t =
      ((List.range (t.length / 3)).map
          (fun g => groupBit (t.getD (3 * g) false) (t.getD (3 * g + 1) false) (t.getD (3 * g + 2) false)),
       ((List.range (t.length / 3)).map
          (fun g => groupCount (t.getD (3 * g) false) (t.getD (3 * g + 1) false) (t.getD (3 * g + 2) false))).sum) := by
  fun_induction fecDec t with
  | case1 a b c t r ih =>
    have hl : (a :: b :: c :: t).length / 3 = t.length / 3 + 1 := by simp; omega
    rw [hl, List.range_succ_eq_map]
    simp only [r, ih, List.map_cons, List.map_map, List.sum_cons]
    have h0 : ∀ g, 3 * (g + 1) = 3 * g + 3 := fun g => by omega
    simp [Function.comp_def, h0]
  | case2 t h =>
    have : t.length < 3 := by
      by_contra hl
      match t, h, hl with
      | a :: b :: c :: t, h, _ => exact h _ _ _ _ rfl
      | [], _, hl | [_], _, hl | [_, _], _, hl => simp at hl
    have : t.length / 3 = 0 := by omega
    simp [this]

end Sys2Proof.Machine
end

