-- ==== Sys2Proof/Laws/Pixel.lean ====
section
/-! SUPPORT. The laws of the PIXEL family: where a coded bit lies, and everything alpha forcing and embedding do to
`PIX`. -/

namespace Sys2Proof.Machine

theorem slot_eq (n : Nat) : slot n = 4 * (n / 3) + n % 3 := rfl

theorem alphaAt_eq (p : Nat) : alphaAt p = 4 * p + 3 := rfl

theorem cap_eq (s : State) : cap s = 3 * npix s := rfl

theorem slot_injective {m n : Nat} (h : slot m = slot n) : m = n := by
  simp only [slot_eq] at h; omega

theorem slot_ne_alphaAt (n p : Nat) : slot n ≠ alphaAt p := by
  simp only [slot_eq, alphaAt_eq]; omega

/-- Channel `ch` of pixel `p` carries coded bit `3p + ch` (R47). -/
theorem slot_pixel {p ch : Nat} (h : ch < 3) : slot (3 * p + ch) = 4 * p + ch := by
  simp only [slot_eq]; omega

/-- `NPIX` is below `2^32` (R18). -/
theorem npix_le (s : State) : npix s ≤ 4294836225 := by
  have h1 := s.width.isLt
  have h2 := s.height.isLt
  unfold npix
  calc s.width.toNat * s.height.toNat ≤ 65535 * 65535 := Nat.mul_le_mul (by omega) (by omega)
    _ = 4294836225 := by norm_num

/-- The pixels of the buffer are the pixels at its columns and rows (R27). -/
theorem pixelIndex_lt {s : State} {x y : Nat} (hx : x < s.width.toNat) (hy : y < s.height.toNat) :
    pixelIndex s x y < npix s := by
  unfold pixelIndex npix
  calc y * s.width.toNat + x < y * s.width.toNat + s.width.toNat := by omega
    _ = (y + 1) * s.width.toNat := by ring
    _ ≤ s.height.toNat * s.width.toNat := Nat.mul_le_mul_right _ hy
    _ = s.width.toNat * s.height.toNat := Nat.mul_comm ..

/-! ### Alpha forcing -/

/-- What every write of an alpha byte of the buffer keeps, ALPHAFORCE keeps. -/
theorem alphaForce_keeps {P : State → Prop} (s : State)
    (hw : ∀ (t : State) (p : Nat), p < npix s → P t → P (memWrite t .pix (alphaAt p) 255#8)) (hs : P s) :
    P (alphaForce s) := by
  have key : ∀ (l : List Nat) (t : State), (∀ p ∈ l, p < npix s) → P t →
      P (l.foldl (fun t p => memWrite t .pix (alphaAt p) Config.alphaOpaque) t) := by
    intro l
    induction l with
    | nil => exact fun _ _ h => h
    | cons p l ih =>
      intro t hl ht
      exact ih _ (fun q hq => hl q (List.mem_cons_of_mem _ hq)) (hw t p (hl p (by simp)) ht)
  exact key _ s (fun p hp => List.mem_range.mp hp) hs

/-- Everything ALPHAFORCE does to memory (R65). -/
theorem memRead_alphaForce (s : State) (sp : Space) (a : Nat) :
    memRead (alphaForce s) sp a =
      if sp = .pix ∧ a % 4 = 3 ∧ a / 4 < npix s then 255#8 else memRead s sp a := by
  have key : ∀ (l : List Nat) (t : State),
      memRead (l.foldl (fun t p => memWrite t .pix (alphaAt p) Config.alphaOpaque) t) sp a =
        if sp = .pix ∧ ∃ p ∈ l, a = alphaAt p then 255#8 else memRead t sp a := by
    intro l
    induction l with
    | nil => simp
    | cons p l ih =>
      intro t
      rw [List.foldl_cons, ih, memRead_memWrite]
      by_cases hsp : sp = .pix <;> by_cases hp : a = alphaAt p <;> simp [hsp, hp]
  rw [alphaForce, key]
  have : (∃ p ∈ List.range (npix s), a = alphaAt p) ↔ a % 4 = 3 ∧ a / 4 < npix s := by
    simp only [List.mem_range, alphaAt_eq]
    constructor
    · rintro ⟨p, hp, rfl⟩; omega
    · rintro ⟨h1, h2⟩; exact ⟨a / 4, h2, by omega⟩
  simp only [this]

/-! ### Embedding -/

/-- What every write of a channel byte in the run keeps, the loop of EMBED keeps. -/
theorem embedBits_keeps {P : State → Prop} (n : Nat) (t : List Bool) (s : State)
    (hw : ∀ (u : State) (m : Nat) (v : Byte), n ≤ m → m < n + t.length → P u → P (memWrite u .pix (slot m) v))
    (hs : P s) : P (embedBits n t s) := by
  induction t generalizing n s with
  | nil => exact hs
  | cons b t ih =>
    refine ih (n + 1) _ (fun u m v h1 h2 => hw u m v (by omega) (by simp; omega)) ?_
    exact hw s n _ le_rfl (by simp) hs

/-- A byte that no coded bit of the run goes to is left alone (R66). -/
theorem memRead_embedBits_other (n : Nat) (t : List Bool) (s : State) (sp : Space) (a : Nat)
    (h : sp = .pix → ∀ i, i < t.length → a ≠ slot (n + i)) :
    memRead (embedBits n t s) sp a = memRead s sp a := by
  refine embedBits_keeps (P := fun u => memRead u sp a = memRead s sp a) n t s (fun u m v h1 h2 hu => ?_) rfl
  rw [memRead_memWrite, if_neg, hu]
  rintro ⟨hsp, ha⟩
  exact h hsp (m - n) (by omega) (by rw [ha]; congr 1; omega)

/-- The byte coded bit `n + i` goes to gets that bit in its least significant place (R66). -/
theorem memRead_embedBits_slot (n : Nat) (t : List Bool) (s : State) (i : Nat) (h : i < t.length) :
    memRead (embedBits n t s) .pix (slot (n + i)) = putLsb (memRead s .pix (slot (n + i))) t[i] := by
  induction t generalizing n s i with
  | nil => simp at h
  | cons b t ih =>
    rw [embedBits]
    cases i with
    | zero =>
      rw [memRead_embedBits_other _ _ _ _ _ (fun _ i _ h => by have := slot_injective h; omega)]
      simp
    | succ i =>
      have hn : n + (i + 1) = n + 1 + i := by omega
      rw [hn, ih (n + 1) _ i (by simpa using h), memRead_memWrite, if_neg]
      · simp
      · rintro ⟨-, hs⟩
        have := slot_injective hs
        omega

section Fields
variable (n : Nat) (t : List Bool) (s : State)

@[simp] theorem embedBits_status : (embedBits n t s).status = s.status :=
  embedBits_keeps (P := fun u => u.status = s.status) n t s (fun _ _ _ _ _ h => by simpa using h) rfl
@[simp] theorem embedBits_olen : (embedBits n t s).olen = s.olen :=
  embedBits_keeps (P := fun u => u.olen = s.olen) n t s (fun _ _ _ _ _ h => by simpa using h) rfl
@[simp] theorem embedBits_corrected : (embedBits n t s).corrected = s.corrected :=
  embedBits_keeps (P := fun u => u.corrected = s.corrected) n t s (fun _ _ _ _ _ h => by simpa using h) rfl
@[simp] theorem embedBits_width : (embedBits n t s).width = s.width :=
  embedBits_keeps (P := fun u => u.width = s.width) n t s (fun _ _ _ _ _ h => by simpa using h) rfl
@[simp] theorem embedBits_height : (embedBits n t s).height = s.height :=
  embedBits_keeps (P := fun u => u.height = s.height) n t s (fun _ _ _ _ _ h => by simpa using h) rfl
@[simp] theorem embedBits_mlen : (embedBits n t s).mlen = s.mlen :=
  embedBits_keeps (P := fun u => u.mlen = s.mlen) n t s (fun _ _ _ _ _ h => by simpa using h) rfl
@[simp] theorem embedBits_klen : (embedBits n t s).klen = s.klen :=
  embedBits_keeps (P := fun u => u.klen = s.klen) n t s (fun _ _ _ _ _ h => by simpa using h) rfl
@[simp] theorem embedBits_params : (embedBits n t s).params = s.params :=
  embedBits_keeps (P := fun u => u.params = s.params) n t s (fun _ _ _ _ _ h => by simpa using h) rfl
@[simp] theorem embedBits_draw : (embedBits n t s).draw = s.draw :=
  embedBits_keeps (P := fun u => u.draw = s.draw) n t s (fun _ _ _ _ _ h => by simpa using h) rfl
@[simp] theorem embedBits_pending : (embedBits n t s).pending = s.pending :=
  embedBits_keeps (P := fun u => u.pending = s.pending) n t s (fun _ _ _ _ _ h => by simpa using h) rfl
@[simp] theorem embedBits_replies : (embedBits n t s).replies = s.replies :=
  embedBits_keeps (P := fun u => u.replies = s.replies) n t s (fun _ _ _ _ _ h => by simpa using h) rfl
@[simp] theorem alphaForce_status : (alphaForce s).status = s.status :=
  alphaForce_keeps (P := fun u => u.status = s.status) s (fun _ _ _ h => by simpa using h) rfl
@[simp] theorem alphaForce_olen : (alphaForce s).olen = s.olen :=
  alphaForce_keeps (P := fun u => u.olen = s.olen) s (fun _ _ _ h => by simpa using h) rfl
@[simp] theorem alphaForce_corrected : (alphaForce s).corrected = s.corrected :=
  alphaForce_keeps (P := fun u => u.corrected = s.corrected) s (fun _ _ _ h => by simpa using h) rfl
@[simp] theorem alphaForce_width : (alphaForce s).width = s.width :=
  alphaForce_keeps (P := fun u => u.width = s.width) s (fun _ _ _ h => by simpa using h) rfl
@[simp] theorem alphaForce_height : (alphaForce s).height = s.height :=
  alphaForce_keeps (P := fun u => u.height = s.height) s (fun _ _ _ h => by simpa using h) rfl
@[simp] theorem alphaForce_mlen : (alphaForce s).mlen = s.mlen :=
  alphaForce_keeps (P := fun u => u.mlen = s.mlen) s (fun _ _ _ h => by simpa using h) rfl
@[simp] theorem alphaForce_klen : (alphaForce s).klen = s.klen :=
  alphaForce_keeps (P := fun u => u.klen = s.klen) s (fun _ _ _ h => by simpa using h) rfl
@[simp] theorem alphaForce_params : (alphaForce s).params = s.params :=
  alphaForce_keeps (P := fun u => u.params = s.params) s (fun _ _ _ h => by simpa using h) rfl
@[simp] theorem alphaForce_draw : (alphaForce s).draw = s.draw :=
  alphaForce_keeps (P := fun u => u.draw = s.draw) s (fun _ _ _ h => by simpa using h) rfl
@[simp] theorem alphaForce_pending : (alphaForce s).pending = s.pending :=
  alphaForce_keeps (P := fun u => u.pending = s.pending) s (fun _ _ _ h => by simpa using h) rfl
@[simp] theorem alphaForce_replies : (alphaForce s).replies = s.replies :=
  alphaForce_keeps (P := fun u => u.replies = s.replies) s (fun _ _ _ h => by simpa using h) rfl

end Fields

/-- Embedding within the buffer keeps the invariant of the memories. -/
theorem embed_memInv {s : State} {t : List Bool} (h : s.MemInv) (hfit : 4 * npix s ≤ s.params.pixBytes)
    (ht : t.length ≤ cap s) : (embedBits 0 t (alphaForce s)).MemInv := by
  have ha : (alphaForce s).params = s.params ∧ (alphaForce s).MemInv :=
    alphaForce_keeps (P := fun u => u.params = s.params ∧ u.MemInv) s
      (fun u p hp hu => ⟨by simpa using hu.1, memWrite_memInv _ hu.2 (by
        rw [hu.1]; show alphaAt p < s.params.pixBytes; rw [alphaAt_eq]; omega)⟩) ⟨rfl, h⟩
  exact (embedBits_keeps (P := fun u => u.params = s.params ∧ u.MemInv) 0 t _
    (fun u m v _ h2 hu => ⟨by simpa using hu.1, memWrite_memInv v hu.2 (by
      rw [hu.1]; show slot m < s.params.pixBytes
      rw [slot_eq]; rw [cap_eq] at ht; omega)⟩) ha).2

/-! ### One byte with a bit put in it -/

@[simp] theorem putLsb_bit0 (v : Byte) (b : Bool) : (putLsb v b).getLsbD 0 = b := by
  cases b <;> simp [putLsb, Config.lsbClear]

theorem putLsb_putLsb (v : Byte) (a b : Bool) : putLsb (putLsb v a) b = putLsb v b := by
  revert v a b; decide

end Sys2Proof.Machine
end

