-- ==== Sys2Proof/Laws/Command.lean ====
section
/-! SUPPORT. What each command can do, said once: the next state of every command as a decision over its failure
conditions, and the pixel-by-pixel reading of a region (R69) it rests on. -/

namespace Sys2Proof.Machine

/-! ### Reading a region, pixel by pixel -/

theorem codedBit_pixel (s : State) {p ch : Nat} (h : ch < 3) : codedBit s (3 * p + ch) = lsb s p ch := by
  rw [codedBit, slot_pixel h, lsb]

theorem groupBit_eq (a b c : Bool) : groupBit a b c = ((a && b) || (a && c) || (b && c)) := by
  revert a b c; decide

theorem groupCount_eq (a b c : Bool) : groupCount a b c = (!(a == b && b == c)).toNat := by
  revert a b c; decide

theorem countP_eq_sum (p : Nat → Bool) (l : List Nat) : l.countP p = (l.map (fun x => (p x).toNat)).sum := by
  induction l with
  | nil => rfl
  | cons x l ih =>
    rw [List.countP_cons, List.map_cons, List.sum_cons, ih, Nat.add_comm]
    cases p x <;> rfl

/-- FECDEC of a region that starts at a pixel boundary (R69). -/
theorem fecDec_region (s : State) (a b : Nat) :
    fecDec ((List.range (3 * b)).map (fun i => codedBit s (3 * a + i))) =
      ((List.range b).map (fun p => pixelBit s (a + p)),
       (List.range b).countP (fun p => pixelSplit s (a + p))) := by
  rw [fecDec_eq]
  have hl : ((List.range (3 * b)).map (fun i => codedBit s (3 * a + i))).length / 3 = b := by simp
  rw [hl]
  have hg : ∀ p, p < b → ∀ ch, ch < 3 →
      ((List.range (3 * b)).map (fun i => codedBit s (3 * a + i))).getD (3 * p + ch) false = lsb s (a + p) ch := by
    intro p hp ch hch
    have hi : 3 * p + ch < 3 * b := by omega
    have he : 3 * a + (3 * p + ch) = 3 * (a + p) + ch := by omega
    simp [List.getD_eq_getElem?_getD, hi, he, codedBit_pixel s hch]
  congr 1
  · refine List.map_congr_left fun p hp => ?_
    have hp := List.mem_range.mp hp
    have h0 := hg p hp 0 (by decide)
    rw [Nat.add_zero] at h0
    rw [h0, hg p hp 1 (by decide), hg p hp 2 (by decide), groupBit_eq, pixelBit]
  · rw [countP_eq_sum]
    congr 1
    refine List.map_congr_left fun p hp => ?_
    have hp := List.mem_range.mp hp
    have h0 := hg p hp 0 (by decide)
    rw [Nat.add_zero] at h0
    rw [h0, hg p hp 1 (by decide), hg p hp 2 (by decide), groupCount_eq, pixelSplit]

theorem parseHdr_region (s : State) : parseHdr ((List.range 32).map (fun p => pixelBit s (0 + p))) = headerLen s := by
  rw [parseHdr, bitsVal_eq_sum, headerLen]
  refine congrArg List.sum ?_
  simp only [List.length_map, List.length_range]
  refine List.map_congr_left fun q hq => ?_
  have hq := List.mem_range.mp hq
  simp [hq]

theorem headerLen_lt (s : State) : headerLen s < 2 ^ 32 := by
  rw [← parseHdr_region]
  exact lt_of_lt_of_le (bitsVal_lt _) (by simp)

theorem fromBits_region (s : State) (L : Nat) :
    fromBits ((List.range L).map (fun p => pixelBit s (32 + p))) = (List.range (L / 8)).map (bodyByte s) := by
  refine List.ext_getElem (by simp) fun i h1 h2 => ?_
  have hi : i < L / 8 := by simpa using h2
  rw [fromBits_getElem]
  simp only [List.getElem_map, List.getElem_range, bodyByte]
  congr 1
  rw [bitsVal_eq_sum]
  have hl : (((List.range L).map (fun p => pixelBit s (32 + p))).drop (8 * i) |>.take 8).length = 8 := by
    simp; omega
  rw [hl]
  congr 1
  refine List.map_congr_left fun j hj => ?_
  have hj := List.mem_range.mp hj
  have hij : 8 * i + j < L := by omega
  simp [List.getD_eq_getElem?_getD, hj, hij, Nat.add_assoc]

theorem corrections_split (s : State) (L : Nat) :
    (List.range 32).countP (fun p => pixelSplit s (0 + p)) + (List.range L).countP (fun p => pixelSplit s (32 + p)) =
      corrections s (32 + L) := by
  rw [corrections, List.range_add, List.countP_append, List.countP_map]
  simp [Function.comp_def]

theorem corrections_le (s : State) (n : Nat) : corrections s n ≤ n := by
  simpa [corrections] using List.countP_le_length (p := pixelSplit s) (l := List.range n)

/-! ### What the closed forms look at: the least significant bits of the pixels they name, and the key -/

theorem pixelBit_congr {s t : State} {p : Nat} (h : ∀ ch, ch < 3 → lsb t p ch = lsb s p ch) :
    pixelBit t p = pixelBit s p := by
  simp only [pixelBit, h 0 (by decide), h 1 (by decide), h 2 (by decide)]

theorem pixelSplit_congr {s t : State} {p : Nat} (h : ∀ ch, ch < 3 → lsb t p ch = lsb s p ch) :
    pixelSplit t p = pixelSplit s p := by
  simp only [pixelSplit, h 0 (by decide), h 1 (by decide), h 2 (by decide)]

theorem headerLen_congr {s t : State} (h : ∀ p, p < 32 → pixelBit t p = pixelBit s p) :
    headerLen t = headerLen s := by
  unfold headerLen
  refine congrArg List.sum (List.map_congr_left fun q hq => ?_)
  rw [h q (List.mem_range.mp hq)]

theorem bodyByte_congr {s t : State} {i : Nat}
    (h : ∀ j, j < 8 → pixelBit t (32 + 8 * i + j) = pixelBit s (32 + 8 * i + j)) : bodyByte t i = bodyByte s i := by
  unfold bodyByte
  refine congrArg (fun l : List Nat => BitVec.ofNat 8 l.sum) (List.map_congr_left fun j hj => ?_)
  rw [h j (List.mem_range.mp hj)]

theorem corrections_congr {s t : State} {n : Nat} (h : ∀ p, p < n → pixelSplit t p = pixelSplit s p) :
    corrections t n = corrections s n :=
  List.countP_congr fun p hp => by rw [h p (List.mem_range.mp hp)]

theorem keyTerm_congr {s t : State} (hk : t.klen = s.klen)
    (h : ∀ i, i < s.klen.toNat → memRead t .key i = memRead s .key i) (i : Nat) : keyTerm t i = keyTerm s i := by
  unfold keyTerm
  rw [hk]
  split
  · rfl
  · rename_i h0
    refine h _ (Nat.mod_lt _ (Nat.pos_of_ne_zero fun hz => h0 (BitVec.eq_of_toNat_eq (by simpa using hz))))

/-! ### The key and the cipher -/

theorem keyBytes_getD (s : State) (i : Nat) :
    (keyBytes s).getD (i % (keyBytes s).length) 0 = keyTerm s i := by
  rw [keyTerm, keyBytes, readBytes_length]
  by_cases h : s.klen = 0
  · simp [h, readBytes]
  · have hk : 0 < s.klen.toNat := by
      rcases Nat.eq_zero_or_pos s.klen.toNat with h' | h'
      · exact absurd (BitVec.eq_of_toNat_eq (by simpa using h')) h
      · exact h'
    have hlt := Nat.mod_lt i hk
    rw [List.getD_eq_getElem _ _ (by simpa using hlt)]
    rw [readBytes_getElem, if_neg h]

/-- XORSTREAM with the key of the state, as a list by index (R50, R51). -/
theorem xorStream_key (s : State) (m : List Byte) (n : Nat) (f : Nat → Byte) (h : m = (List.range n).map f) :
    xorStream m (keyBytes s) = (List.range n).map (fun i => f i ^^^ keyTerm s i) := by
  subst h
  refine List.ext_getElem (by simp) fun i h1 h2 => ?_
  rw [xorStream_getElem, keyBytes_getD]
  simp

theorem cipher_message (s : State) :
    xorStream (message s) (keyBytes s) = (List.range s.mlen.toNat).map (cipherByte s) :=
  xorStream_key s _ _ _ rfl

/-! ### Admissibility (R39) -/

theorem fitsCipher_iff (s : State) : fitsCipher s = true ↔ s.mlen.toNat ≤ s.params.msgBytes ∧
    s.mlen.toNat ≤ s.params.outBytes ∧ s.klen.toNat ≤ s.params.keyBytes := by
  simp only [fitsCipher, Bool.and_eq_true, decide_eq_true_eq, and_assoc]

theorem fitsEncode_iff (s : State) : fitsEncode s = true ↔ s.mlen.toNat ≤ s.params.msgBytes ∧
    s.klen.toNat ≤ s.params.keyBytes ∧ 4 * npix s ≤ s.params.pixBytes := by
  simp only [fitsEncode, Bool.and_eq_true, decide_eq_true_eq, and_assoc]

theorem fitsDecode_iff (s : State) : fitsDecode s = true ↔
    s.klen.toNat ≤ s.params.keyBytes ∧ 4 * npix s ≤ s.params.pixBytes := by
  simp only [fitsDecode, Bool.and_eq_true, decide_eq_true_eq]

/-! ### The commands -/

/-- Everything CIPHER can do (R53). -/
theorem exec_cipher (s : State) :
    exec .cipher s = .next (if fitsCipher s = true then
        succeed s.mlen.toNat 0 (writeBytes .out 0 ((List.range s.mlen.toNat).map (cipherByte s)) s)
      else raise .badConfig s) := by
  cases h : fitsCipher s <;> simp [exec, execCipher, runCipher, h, endCommand, cipher_message]

/-- Everything ENCODE can do (R72). -/
theorem exec_encode (s : State) :
    exec .encode s = .next (if fitsEncode s = true then
        if 32 + 8 * s.mlen.toNat ≤ npix s then
          succeed 0 0 (embedBits 0 (fecEnc (frame ((List.range s.mlen.toNat).map (cipherByte s)))) (alphaForce s))
        else raise .insufficientCapacity s
      else raise .badConfig s) := by
  cases h : fitsEncode s
  · simp [exec, execEncode, runEncode, h, endCommand]
  · have hcap : codedLen s.mlen.toNat > cap s ↔ ¬(32 + 8 * s.mlen.toNat ≤ npix s) := by
      rw [codedLen, cap_eq]; simp only [Config.rep, Config.hdrBits, Config.unitBits]; omega
    by_cases hc : 32 + 8 * s.mlen.toNat ≤ npix s
    · have h1 : ¬(codedLen s.mlen.toNat > cap s) := by rw [hcap]; simpa using hc
      have h2 : ¬((fecEnc (frame ((List.range s.mlen.toNat).map (cipherByte s)))).length > cap s) := by
        rw [cap_eq]; simp; omega
      simp only [exec, execEncode, runEncode, h, h1, hc, cipher_message, embed, h2, endCommand, Bool.not_true,
        Bool.false_eq_true, if_false, if_true]
      rfl
    · have h1 := hcap.mpr hc
      simp [exec, execEncode, runEncode, h, h1, hc, endCommand]

/-- The path of DECODE on which the header is rejected (R73). -/
theorem runDecode_corrupt {s : State} {hb h : List Bool} {c1 L : Nat} (hfit : fitsDecode s = true)
    (hx : extract s 0 Config.codedHdrBits = .ok hb) (hf : fecDec hb = (h, c1)) (hp : parseHdr h = L)
    (hv : validateHdr s L = .error .corruptHeader) : runDecode s = .error .corruptHeader := by
  simp [runDecode, hfit, hx, hf, hp, hv, bind, Except.bind]

/-- The path of DECODE on which every check passes (R73). -/
theorem runDecode_ok {s : State} {hb h bb b : List Bool} {c1 c2 L : Nat} (hfit : fitsDecode s = true)
    (hx : extract s 0 Config.codedHdrBits = .ok hb) (hf : fecDec hb = (h, c1)) (hp : parseHdr h = L)
    (hv : validateHdr s L = .ok ()) (hy : extract s Config.codedHdrBits (Config.rep * L) = .ok bb)
    (hg : fecDec bb = (b, c2)) :
    runDecode s = .ok (succeed (L / 8) (c1 + c2) (writeBytes .out 0 (xorStream (fromBits b) (keyBytes s)) s)) := by
  simp [runDecode, hfit, hx, hf, hp, hv, hy, hg, bind, Except.bind]

/-- VALIDATEHDR as one condition in pixels (R68). -/
theorem validateHdr_eq (s : State) (L : Nat) :
    validateHdr s L = if 0 < L ∧ L % 8 = 0 ∧ 32 + L ≤ npix s then .ok () else .error .corruptHeader := by
  rw [validateHdr, cap_eq]
  simp only [Config.unitBits, Config.codedHdrBits, Config.rep]
  repeat' split
  all_goals first | rfl | (exfalso; omega)

/-- EXTRACT of a region of whole pixels that lies in the buffer (R67). -/
theorem extract_region {s : State} {a b : Nat} (h : a + b ≤ npix s) :
    extract s (3 * a) (3 * b) = .ok ((List.range (3 * b)).map (fun i => codedBit s (3 * a + i))) := by
  rw [extract, if_neg (by rw [cap_eq]; omega)]

/-- Everything DECODE can do (R73). -/
theorem exec_decode (s : State) :
    exec .decode s = .next (if fitsDecode s = true then
        if 32 ≤ npix s then
          if 0 < headerLen s ∧ headerLen s % 8 = 0 ∧ 32 + headerLen s ≤ npix s then
            succeed (headerLen s / 8) (corrections s (32 + headerLen s))
              (writeBytes .out 0 ((List.range (headerLen s / 8)).map (fun i => bodyByte s i ^^^ keyTerm s i)) s)
          else raise .corruptHeader s
        else raise .truncatedExtraction s
      else raise .badConfig s) := by
  show endCommand s (runDecode s) = _
  cases hfit : fitsDecode s
  · simp [runDecode, hfit, endCommand]
  by_cases hn : 32 ≤ npix s
  swap
  · have hx : extract s 0 Config.codedHdrBits = .error .truncatedExtraction := by
      rw [extract, if_pos (by rw [cap_eq]; show 0 + 96 > 3 * npix s; omega)]
    simp [runDecode, hfit, hn, hx, endCommand, bind, Except.bind]
  have hx : extract s 0 Config.codedHdrBits = _ := extract_region (a := 0) (b := 32) (by omega)
  have hv := validateHdr_eq s (headerLen s)
  have hp := parseHdr_region s
  have hb := fromBits_region s (headerLen s)
  have hsum := corrections_split s (headerLen s)
  rw [if_pos rfl, if_pos hn]
  generalize headerLen s = L at hv hp hb hsum ⊢
  by_cases hL : 0 < L ∧ L % 8 = 0 ∧ 32 + L ≤ npix s
  · rw [if_pos hL] at hv ⊢
    have hy : extract s Config.codedHdrBits (Config.rep * L) = _ := extract_region (a := 32) (b := L) (by omega)
    rw [runDecode_ok hfit hx (fecDec_region s 0 32) hp hv hy (fecDec_region s 32 L), hsum,
      xorStream_key s _ _ _ hb]
    rfl
  · rw [if_neg hL] at hv ⊢
    rw [runDecode_corrupt hfit hx (fecDec_region s 0 32) hp hv]
    rfl

/-! ### The cases, one law each, and the inversion of a command over them

The conditions of DECODE mention `headerLen`, so its cases are stated without an `if` over it. -/

/-- What CIPHER leaves on success (R53). -/
def cipherPost (s : State) : State :=
  succeed s.mlen.toNat 0 (writeBytes .out 0 ((List.range s.mlen.toNat).map (cipherByte s)) s)

/-- What ENCODE leaves on success (R72). -/
def encodePost (s : State) : State :=
  succeed 0 0 (embedBits 0 (fecEnc (frame ((List.range s.mlen.toNat).map (cipherByte s)))) (alphaForce s))

/-- What DECODE leaves on success when the header spells `L` (R73). -/
def decodePost (s : State) (L : Nat) : State :=
  succeed (L / 8) (corrections s (32 + L))
    (writeBytes .out 0 ((List.range (L / 8)).map (fun i => bodyByte s i ^^^ keyTerm s i)) s)

theorem exec_cipher_ok {s : State} (h : fitsCipher s = true) : exec .cipher s = .next (cipherPost s) := by
  rw [exec_cipher, if_pos h]; rfl

theorem exec_cipher_badConfig {s : State} (h : fitsCipher s = false) :
    exec .cipher s = .next (raise .badConfig s) := by
  rw [exec_cipher, if_neg (by simp [h])]

theorem exec_encode_ok {s : State} (h : fitsEncode s = true) (hn : 32 + 8 * s.mlen.toNat ≤ npix s) :
    exec .encode s = .next (encodePost s) := by
  rw [exec_encode, if_pos h, if_pos hn]; rfl

theorem exec_encode_insufficient {s : State} (h : fitsEncode s = true) (hn : npix s < 32 + 8 * s.mlen.toNat) :
    exec .encode s = .next (raise .insufficientCapacity s) := by
  rw [exec_encode, if_pos h, if_neg (by omega)]

theorem exec_encode_badConfig {s : State} (h : fitsEncode s = false) :
    exec .encode s = .next (raise .badConfig s) := by
  rw [exec_encode, if_neg (by simp [h])]

theorem exec_decode_ok {s : State} {L : Nat} (h : fitsDecode s = true) (hL : headerLen s = L) (hpos : 0 < L)
    (h8 : L % 8 = 0) (hn : 32 + L ≤ npix s) : exec .decode s = .next (decodePost s L) := by
  have he := exec_decode s
  rw [if_pos h, if_pos (by omega)] at he
  rw [hL] at he
  rw [he, if_pos ⟨hpos, h8, hn⟩]
  rfl

theorem exec_decode_corrupt {s : State} {L : Nat} (h : fitsDecode s = true) (hn : 32 ≤ npix s)
    (hL : headerLen s = L) (hbad : ¬(0 < L ∧ L % 8 = 0 ∧ 32 + L ≤ npix s)) :
    exec .decode s = .next (raise .corruptHeader s) := by
  have he := exec_decode s
  rw [if_pos h, if_pos hn] at he
  rw [hL] at he
  rw [he, if_neg hbad]

theorem exec_decode_truncated {s : State} (h : fitsDecode s = true) (hn : npix s < 32) :
    exec .decode s = .next (raise .truncatedExtraction s) := by
  have he := exec_decode s
  rw [if_pos h, if_neg (by omega)] at he
  exact he

theorem exec_decode_badConfig {s : State} (h : fitsDecode s = false) :
    exec .decode s = .next (raise .badConfig s) := by
  have he := exec_decode s
  rw [if_neg (by simp [h])] at he
  exact he

/-- The next state of a command is one state: what a law of a case gives is it. -/
theorem exec_unique {i : Instr} {s t u : State} (h : exec i s = .next t) (hu : exec i s = .next u) : t = u :=
  Host.Outcome.next.inj (h.symm.trans hu)

/-- Every next state of a command: the success of one of the three, or the state with a failure raised that its command
may raise (R77). Guards included. -/
theorem exec_cases {i : Instr} {s t : State} (h : exec i s = .next t) :
    (i = .cipher ∧ fitsCipher s = true ∧ t = cipherPost s) ∨
    (i = .encode ∧ fitsEncode s = true ∧ 32 + 8 * s.mlen.toNat ≤ npix s ∧ t = encodePost s) ∨
    (∃ L, i = .decode ∧ fitsDecode s = true ∧ headerLen s = L ∧ 0 < L ∧ L % 8 = 0 ∧ 32 + L ≤ npix s ∧
      t = decodePost s L) ∨
    (∃ f, t = raise f s ∧ (f = .badConfig ∨ (f = .insufficientCapacity ∧ i = .encode) ∨
      ((f = .truncatedExtraction ∨ f = .corruptHeader) ∧ i = .decode))) := by
  have inj : ∀ {u : State}, exec i s = .next u → t = u := exec_unique h
  cases i with
  | cipher =>
    cases hf : fitsCipher s
    · exact .inr (.inr (.inr ⟨_, inj (exec_cipher_badConfig hf), .inl rfl⟩))
    · exact .inl ⟨rfl, rfl, inj (exec_cipher_ok hf)⟩
  | encode =>
    cases hf : fitsEncode s
    · exact .inr (.inr (.inr ⟨_, inj (exec_encode_badConfig hf), .inl rfl⟩))
    · by_cases hn : 32 + 8 * s.mlen.toNat ≤ npix s
      · exact .inr (.inl ⟨rfl, rfl, hn, inj (exec_encode_ok hf hn)⟩)
      · exact .inr (.inr (.inr ⟨_, inj (exec_encode_insufficient hf (by omega)), .inr (.inl ⟨rfl, rfl⟩)⟩))
  | decode =>
    cases hf : fitsDecode s
    · exact .inr (.inr (.inr ⟨_, inj (exec_decode_badConfig hf), .inl rfl⟩))
    · by_cases hn : 32 ≤ npix s
      · obtain ⟨L, hL⟩ : ∃ L, headerLen s = L := ⟨_, rfl⟩
        by_cases hg : 0 < L ∧ L % 8 = 0 ∧ 32 + L ≤ npix s
        · obtain ⟨h1, h2, h3⟩ := hg
          exact .inr (.inr (.inl ⟨L, rfl, rfl, hL, h1, h2, h3, inj (exec_decode_ok hf hL h1 h2 h3)⟩))
        · exact .inr (.inr (.inr ⟨_, inj (exec_decode_corrupt hf hn hL hg), .inr (.inr ⟨.inr rfl, rfl⟩)⟩))
      · exact .inr (.inr (.inr ⟨_, inj (exec_decode_truncated hf (by omega)), .inr (.inr ⟨.inl rfl, rfl⟩)⟩))

section CipherPost
variable (s : State)

@[simp] theorem cipherPost_status : (cipherPost s).status = .ok := rfl
@[simp] theorem cipherPost_olen : (cipherPost s).olen = s.mlen := by simp [cipherPost]
@[simp] theorem cipherPost_corrected : (cipherPost s).corrected = 0 := rfl
@[simp] theorem cipherPost_width : (cipherPost s).width = s.width := by simp [cipherPost]
@[simp] theorem cipherPost_height : (cipherPost s).height = s.height := by simp [cipherPost]
@[simp] theorem cipherPost_mlen : (cipherPost s).mlen = s.mlen := by simp [cipherPost]
@[simp] theorem cipherPost_klen : (cipherPost s).klen = s.klen := by simp [cipherPost]
@[simp] theorem cipherPost_params : (cipherPost s).params = s.params := by simp [cipherPost]
@[simp] theorem cipherPost_draw : (cipherPost s).draw = s.draw := by simp [cipherPost]
@[simp] theorem cipherPost_pending : (cipherPost s).pending = s.pending := by simp [cipherPost]
@[simp] theorem cipherPost_replies : (cipherPost s).replies = s.replies := by simp [cipherPost]

/-- Everything a successful CIPHER does to memory. -/
theorem memRead_cipherPost (sp : Space) (a : Nat) :
    memRead (cipherPost s) sp a = if sp = .out ∧ a < s.mlen.toNat then cipherByte s a else memRead s sp a := by
  rw [cipherPost, memRead_succeed, memRead_writeBytes]
  by_cases h : sp = .out ∧ a < s.mlen.toNat
  · rw [if_pos h, if_pos ⟨h.1, by omega, by simpa using h.2⟩]
    simp [h.2]
  · rw [if_neg h, if_neg]
    rintro ⟨h1, -, h2⟩
    exact h ⟨h1, by simpa using h2⟩

end CipherPost

section EncodePost
variable (s : State)

@[simp] theorem encodePost_status : (encodePost s).status = .ok := rfl
@[simp] theorem encodePost_olen : (encodePost s).olen = 0 := rfl
@[simp] theorem encodePost_corrected : (encodePost s).corrected = 0 := rfl
@[simp] theorem encodePost_width : (encodePost s).width = s.width := by simp [encodePost]
@[simp] theorem encodePost_height : (encodePost s).height = s.height := by simp [encodePost]
@[simp] theorem encodePost_mlen : (encodePost s).mlen = s.mlen := by simp [encodePost]
@[simp] theorem encodePost_klen : (encodePost s).klen = s.klen := by simp [encodePost]
@[simp] theorem encodePost_params : (encodePost s).params = s.params := by simp [encodePost]
@[simp] theorem encodePost_draw : (encodePost s).draw = s.draw := by simp [encodePost]
@[simp] theorem encodePost_pending : (encodePost s).pending = s.pending := by simp [encodePost]
@[simp] theorem encodePost_replies : (encodePost s).replies = s.replies := by simp [encodePost]

theorem memRead_encodePost_other {sp : Space} (h : sp ≠ .pix) (a : Nat) :
    memRead (encodePost s) sp a = memRead s sp a := by
  rw [encodePost, memRead_succeed, memRead_embedBits_other _ _ _ _ _ (fun he => absurd he h), memRead_alphaForce,
    if_neg (fun he => h he.1)]

end EncodePost

section DecodePost
variable (s : State) (L : Nat)

@[simp] theorem decodePost_status : (decodePost s L).status = .ok := rfl
@[simp] theorem decodePost_olen : (decodePost s L).olen = BitVec.ofNat 32 (L / 8) := rfl
@[simp] theorem decodePost_corrected : (decodePost s L).corrected = BitVec.ofNat 32 (corrections s (32 + L)) := rfl
@[simp] theorem decodePost_width : (decodePost s L).width = s.width := by simp [decodePost]
@[simp] theorem decodePost_height : (decodePost s L).height = s.height := by simp [decodePost]
@[simp] theorem decodePost_mlen : (decodePost s L).mlen = s.mlen := by simp [decodePost]
@[simp] theorem decodePost_klen : (decodePost s L).klen = s.klen := by simp [decodePost]
@[simp] theorem decodePost_params : (decodePost s L).params = s.params := by simp [decodePost]
@[simp] theorem decodePost_draw : (decodePost s L).draw = s.draw := by simp [decodePost]
@[simp] theorem decodePost_pending : (decodePost s L).pending = s.pending := by simp [decodePost]
@[simp] theorem decodePost_replies : (decodePost s L).replies = s.replies := by simp [decodePost]

/-- Everything a successful DECODE does to memory. -/
theorem memRead_decodePost (sp : Space) (a : Nat) :
    memRead (decodePost s L) sp a =
      if sp = .out ∧ a < L / 8 then bodyByte s a ^^^ keyTerm s a else memRead s sp a := by
  rw [decodePost, memRead_succeed, memRead_writeBytes]
  by_cases h : sp = .out ∧ a < L / 8
  · rw [if_pos h, if_pos ⟨h.1, by omega, by simpa using h.2⟩]
    simp [h.2]
  · rw [if_neg h, if_neg]
    rintro ⟨h1, -, h2⟩
    exact h ⟨h1, by simpa using h2⟩

end DecodePost

/-- A command always ends in a next state: none faults and none is refused (R81, R99). -/
theorem exec_next (i : Instr) (s : State) : ∃ t, exec i s = .next t := by
  cases i with
  | cipher => exact ⟨_, exec_cipher s⟩
  | encode => exact ⟨_, exec_encode s⟩
  | decode => exact ⟨_, exec_decode s⟩

theorem execIllegal_eq (s : State) : execIllegal s = .next (raise .illegalCommand s) := rfl

end Sys2Proof.Machine
end

