-- ==== Sys2Proof/Laws/Step.lean ====
section
/-! SUPPORT. What a step can do, said once: the register an access reaches, and every next state of a step. -/

namespace Sys2Proof.Machine

/-- The register file as one list of conditions (R9, R25). -/
theorem regAt_eq (size offset : Nat) : regAt size offset =
    if size = 4 ∧ offset = 0x00 then some .cmd
    else if size = 4 ∧ offset = 0x04 then some .status
    else if size = 4 ∧ offset = 0x08 then some .width
    else if size = 4 ∧ offset = 0x0C then some .height
    else if size = 4 ∧ offset = 0x10 then some .mlen
    else if size = 4 ∧ offset = 0x14 then some .klen
    else if size = 4 ∧ offset = 0x18 then some .olen
    else if size = 4 ∧ offset = 0x1C then some .corrected
    else none := by
  unfold regAt
  by_cases h : size = 4
  · simp only [h, if_true, true_and]
    split <;> simp_all
  · simp [h]

/-- A command word is run as its command, or as the illegal one (R71). -/
theorem runCommand_cases (w : Word) (s : State) :
    (∃ i, Sys2Proof.decode w = .ok i ∧ runCommand w s = exec i s) ∨
      runCommand w s = .next (raise .illegalCommand s) := by
  unfold runCommand
  split
  · rename_i i h
    exact .inl ⟨i, h, rfl⟩
  · exact .inr rfl

theorem step_idle {s : State} (h : s.pending = []) : step s = .next s := by simp [step, h]

theorem step_serve {s : State} {a : Access} {rest : List Access} (h : s.pending = a :: rest) :
    step s = serve a { s with pending := rest } := by simp [step, h]

theorem serve_cmd (s : State) (w : Word) : serve (.writeReg 4 0x00 w) s = runCommand w s := rfl

/-- Every next state of a step, guards included: idle, a command, a register write, a read, a store, or a reset. -/
theorem step_cases {s t : State} (h : step s = .next t) :
    (s.pending = [] ∧ t = s) ∨
    ∃ a rest, s.pending = a :: rest ∧
      ((∃ w, a = .writeReg 4 0x00 w ∧ runCommand w { s with pending := rest } = .next t) ∨
       (∃ n o v, a = .writeReg n o v ∧ ¬(n = 4 ∧ o = 0x00) ∧ t = hostRegWrite { s with pending := rest } n o v) ∨
       (∃ r, t = reply r { s with pending := rest }) ∨
       (∃ sp o v, a = .storeByte sp o v ∧ o < s.params.size sp ∧ t = memWrite { s with pending := rest } sp o v) ∨
       (a = .reset ∧ t = platformReset { s with pending := rest })) := by
  cases hp : s.pending with
  | nil =>
    rw [step_idle hp] at h
    injection h with h
    exact .inl ⟨rfl, h.symm⟩
  | cons a rest =>
    rw [step_serve hp] at h
    refine .inr ⟨a, rest, rfl, ?_⟩
    cases a with
    | writeReg n o v =>
      by_cases hc : n = 4 ∧ o = 0x00
      · obtain ⟨rfl, rfl⟩ := hc
        exact .inl ⟨v, rfl, by simpa [serve_cmd] using h⟩
      · have hr : regAt n o ≠ some .cmd := by
          rw [regAt_eq, if_neg hc]
          repeat' split
          all_goals simp
        simp only [serve, if_neg hr] at h
        injection h with h
        exact .inr (.inl ⟨n, o, v, rfl, hc, h.symm⟩)
    | readReg n o =>
      simp only [serve] at h
      injection h with h
      exact .inr (.inr (.inl ⟨_, h.symm⟩))
    | storeByte sp o v =>
      simp only [serve] at h
      split at h
      · rename_i ho
        injection h with h
        exact .inr (.inr (.inr (.inl ⟨sp, o, v, rfl, ho, h.symm⟩)))
      · cases h
    | loadByte sp o =>
      simp only [serve] at h
      split at h
      · injection h with h
        exact .inr (.inr (.inl ⟨_, h.symm⟩))
      · cases h
    | reset =>
      simp only [serve] at h
      injection h with h
      exact .inr (.inr (.inr (.inr ⟨rfl, h.symm⟩)))

end Sys2Proof.Machine
end

