-- ==== Sys2Proof/Laws/PerInstr.lean ====
section
/-! SUPPORT. What holds of every command as it is written, one lemma a constructor. -/

namespace Sys2Proof.Laws.TableRow

/-- The encoding of a command selects exactly its own row of the opcode table (R41). -/
def Statement (i : Instr) : Prop :=
  i.wf = true ∧ (CommandWord.ofWord (Sys2Proof.encode i)).wf = true ∧
    opcodeTable.filter (fun r => r.selects (Sys2Proof.encode i)) = [⟨i, Sys2Proof.encode i, 0xFFFFFFFF#32⟩]

theorem cipher : Statement .cipher := by unfold Statement; decide

theorem encode : Statement .encode := by unfold Statement; decide

theorem decode : Statement .decode := by unfold Statement; decide

end Sys2Proof.Laws.TableRow
end

