-- ==== Sys2Proof/Tests/Slice0.lean ====
section
/-! SUPPORT. The model's own tests: words written out from R41, the vectors of spec/95_test_vectors.md (each test names
the row it comes from), the checks of WellFormed.lean on ill-formed terms, and a witness for the hypotheses of every
statement that has some. -/

namespace Sys2Proof.Tests

open Sys2Proof Sys2Proof.Machine

/-- The next state, where there is one. -/
def after : Host.Outcome State Fault Refusal → Option State
  | .next t => some t
  | _ => none

/-! ### Words, from R41 and V-CMD 1 to 5 -/

theorem test_word_cipher : decode 0b00000000000000000000000000000001#32 = .ok .cipher := rfl
theorem test_word_encode : decode 0b00000000000000000000000000000010#32 = .ok .encode := rfl
theorem test_word_decode : decode 0b00000000000000000000000000000011#32 = .ok .decode := rfl
theorem test_word_zero : decode 0x00000000#32 = .error .unassignedOpcode := rfl
theorem test_word_four : decode 0x00000004#32 = .error .unassignedOpcode := rfl
theorem test_word_bit8 : decode 0x00000102#32 = .error .zeroFieldNotZero := rfl
theorem test_word_bit31 : decode 0x80000001#32 = .error .zeroFieldNotZero := rfl
theorem test_table_word : decodeTableWord 32 3 = some .decode ∧ decodeTableWord 32 4 = none := ⟨rfl, rfl⟩

/-! ### Well-formedness: an ill-formed term for each check (R4, R40 to R42) -/

theorem test_wf_zero_field : (CommandWord.mk 1#24 0x02#8).zeroOk = false := by decide
theorem test_wf_opcode : (CommandWord.mk 0#24 0x04#8).opOk = false := by decide
theorem test_wf_word : (CommandWord.mk 0#24 0x00#8).wf = false ∧ (CommandWord.mk 0#24 0x03#8).wf = true := by decide
theorem test_wf_pix : (Params.mk (4 * (2 ^ 16 - 1) ^ 2 + 1) 0 0 0).pixOk = false := by decide
theorem test_wf_msg : (Params.mk 0 (2 ^ 32) 0 0).msgOk = false := by decide
theorem test_wf_key : (Params.mk 0 0 (2 ^ 32) 0).keyOk = false := by decide
theorem test_wf_out_below_msg : (Params.mk 0 2 0 1).outOk = false := by decide
theorem test_wf_out_wide : (Params.mk 0 0 0 (2 ^ 32)).outOk = false := by decide
theorem test_wf_out_below_maxdec : (Params.mk 1024 16 16 27).outOk = false := by decide
theorem test_wf_reset_sizes : Config.resetParams.wf = true := by decide

/-! ### Unit operations, from V-CIPHER, V-FRAMER, V-FEC -/

/-- V-CIPHER 2, 4 and 5. -/
theorem test_xorStream :
    xorStream [0x48, 0x45, 0x4C, 0x4C, 0x4F] [0x4B, 0x45, 0x59] = [0x03, 0x00, 0x15, 0x07, 0x0A] ∧
    xorStream [0x00, 0xFF, 0x80] [0xFF, 0x0F] = [0xFF, 0xF0, 0x7F] ∧
    xorStream [0x48, 0x49] [] = [0x48, 0x49] := by decide

/-- V-FRAMER 3. -/
theorem test_toBits : toBits [0x80, 0x01] =
    [true, false, false, false, false, false, false, false,
     false, false, false, false, false, false, false, true] := by decide

/-- V-FRAMER 7. -/
theorem test_fromBits :
    fromBits [false, true, false, false, true, false, false, false, false, true, false] = [0x48] := by decide

/-- V-FRAMER 12: the bit indices of 0x01020304 that are 1. -/
theorem test_buildHdr :
    (List.range 32).filter (fun q => (buildHdr 16909060#32).getD q false) = [7, 14, 22, 23, 29] := by decide

/-- V-FRAMER 16 and 17. -/
theorem test_parseHdr :
    parseHdr (List.replicate 32 true) = 4294967295 ∧
    parseHdr (List.replicate 28 false ++ [true, true, false, false]) = 12 := by decide

/-- V-FRAMER 20: the bit indices that are 1. -/
theorem test_frame :
    (frame [0x03, 0x00, 0x15, 0x07, 0x0A]).length = 72 ∧
    (List.range 72).filter (fun q => (frame [0x03, 0x00, 0x15, 0x07, 0x0A]).getD q false) =
      [26, 28, 38, 39, 51, 53, 55, 61, 62, 63, 68, 70] := by decide

/-- V-FEC 1. -/
theorem test_fecEnc : fecEnc [true, false, true] =
    [true, true, true, false, false, false, true, true, true] := by decide

/-- V-FEC 12 and 13. -/
theorem test_fecDec :
    fecDec [true, true, true, false, true, false, true, true, false, false, false, false] =
      ([true, false, true, false], 2) ∧
    fecDec [true, true, true, false, false, false, true] = ([true, false], 0) := by decide

/-! ### The pixel family, from V-PIX, on a buffer of 2 by 1 pixels -/

/-- The buffer of V-PIX 3 to 6. -/
def twoPixels : State :=
  { State.reset with
    width := 2, height := 1
    pix := [(0, 0x10), (1, 0x11), (2, 0x12), (3, 0x13), (4, 0x20), (5, 0x21), (6, 0x22), (7, 0x23)] }

/-- V-PIX 3. -/
theorem test_embed_exact :
    ((embed [true, false, true, false, true, true] twoPixels).toOption.map State.pix) =
      some [(0, 0x11), (1, 0x10), (2, 0x13), (3, 0xFF), (4, 0x20), (5, 0x21), (6, 0x23), (7, 0xFF)] := by decide

/-- V-PIX 4. -/
theorem test_embed_too_long :
    embed [true, false, true, false, true, true, false] twoPixels = .error .insufficientCapacity := rfl

/-- V-PIX 5. -/
theorem test_embed_partial_pixel :
    ((embed [true, true] twoPixels).toOption.map State.pix) =
      some [(0, 0x11), (1, 0x11), (2, 0x12), (3, 0xFF), (4, 0x20), (5, 0x21), (6, 0x22), (7, 0xFF)] := by decide

/-- V-PIX 9 and 10, on the result of V-PIX 3. -/
theorem test_extract :
    extract { twoPixels with pix := [(0, 0x11), (1, 0x10), (2, 0x13), (3, 0xFF), (4, 0x20), (5, 0x21), (6, 0x23), (7, 0xFF)] } 3 3 =
      .ok [false, true, true] ∧
    extract twoPixels 0 7 = .error .truncatedExtraction := ⟨rfl, rfl⟩

/-- V-PIX 14, 15, 16 and 20, at `CAP` = 12288. -/
theorem test_validateHdr :
    validateHdr { State.reset with width := 64, height := 64 } 12 = .error .corruptHeader ∧
    validateHdr { State.reset with width := 64, height := 64 } 4064 = .ok () ∧
    validateHdr { State.reset with width := 64, height := 64 } 4072 = .error .corruptHeader ∧
    validateHdr { State.reset with width := 65535, height := 65535 } 4294967288 = .error .corruptHeader :=
  ⟨rfl, rfl, rfl, rfl⟩

/-! ### One command each -/

/-- The ramp cover of Part 3. -/
def ramp (n : Nat) : Memory := (List.range n).map (fun a => (a, BitVec.ofNat 8 a))

/-- The state of program P1 before its ENCODE. -/
def beforeP1 : State :=
  { State.reset with
    width := 8, height := 6, mlen := 2, klen := 1
    pix := ramp 192, msg := [(0, 0x48), (1, 0x49)], key := [(0, 0x4B)]
    out := [(0, 0xAA), (1, 0xAA), (2, 0xAA), (3, 0xAA)] }

/-- STEGO-HI, by the spec's own formula. -/
def stegoHi : Memory :=
  (List.range 48).flatMap (fun p =>
    let b : Nat := if p ∈ [27, 38, 39, 46] then 1 else 0
    [(4 * p, BitVec.ofNat 8 (4 * p + b)), (4 * p + 1, BitVec.ofNat 8 (4 * p + b)),
     (4 * p + 2, BitVec.ofNat 8 (4 * p + 2 + b)), (4 * p + 3, 0xFF#8)])

/-- Program P1, its ENCODE: STATUS, OLEN, CORRECTED and the whole of `PIX`. -/
theorem test_encode_p1 :
    (after (exec .encode beforeP1)).map (fun t => (t.status, t.olen, t.corrected, t.pix)) =
      some (.ok, 0, 0, stegoHi) := by decide +kernel

/-- Program P5: one pixel short of the capacity. -/
theorem test_encode_p5 :
    after (exec .encode { beforeP1 with width := 47, height := 1 }) =
      some { beforeP1 with width := 47, height := 1, status := .failed .insufficientCapacity } := by decide +kernel

/-- Program P1, its DECODE. -/
theorem test_decode_p1 :
    (after (exec .decode { beforeP1 with pix := stegoHi })).map (fun t => (t.status, t.olen, t.corrected, t.out)) =
      some (.ok, 2, 0, [(0, 0x48), (1, 0x49), (2, 0xAA), (3, 0xAA)]) := by decide +kernel

/-- Program P3: one flipped bit in pixel 5 and one in pixel 40. -/
theorem test_decode_p3 :
    (after (exec .decode { beforeP1 with pix := (stegoHi.put 21 0x15).put 162 0xA3 })).map
        (fun t => (t.status, t.olen, t.corrected, t.out)) =
      some (.ok, 2, 2, [(0, 0x48), (1, 0x49), (2, 0xAA), (3, 0xAA)]) := by decide +kernel

/-- V-CIPHER 1, as the command. -/
theorem test_cipher :
    (after (exec .cipher beforeP1)).map (fun t => (t.status, t.olen, t.corrected, t.out)) =
      some (.ok, 2, 0, [(0, 0x03), (1, 0x02), (2, 0xAA), (3, 0xAA)]) := by decide +kernel

/-- V-CMD 11: a key longer than the key memory. -/
theorem test_cipher_bad_config :
    (after (exec .cipher { beforeP1 with klen := 17, mlen := 1 })).map (fun t => (t.status.word, t.out)) =
      some (6, beforeP1.out) := by decide +kernel

/-- V-CMD 6 as the first step after reset, by `withFetchWord`: STATUS 3. -/
theorem test_first_step :
    (after (step (State.reset.withFetchWord 32 3))).map (fun t => (t.status.word, t.pending)) = some (3, []) := by
  decide +kernel

/-- V-CMD 15: WIDTH keeps bits 15 to 0. -/
theorem test_width_write :
    regRead (hostRegWrite State.reset 4 0x08 0x12345678#32) .width = 0x00005678#32 := by decide

/-- R49: what a script line stands for. -/
theorem test_script :
    (ScriptLine.st .msg 4 [0x48, 0x49]).accesses = [.storeByte .msg 4 0x48, .storeByte .msg 5 0x49] ∧
    (ScriptLine.cmd .encode).accesses = [.writeReg 4 0 0x00000002#32] := by decide

/-! ### Witnesses: a concrete state and operands that meet the hypotheses of each statement -/

/-- The state of program P1 after its ENCODE. -/
def afterP1 : State := { beforeP1 with pix := stegoHi }

/-- The hypothesis the statements about ENCODE and DECODE together share. -/
theorem witness_encode_p1 : exec .encode beforeP1 = .next afterP1 ∧ afterP1.status = .ok ∧ 1 ≤ beforeP1.mlen.toNat := by
  have h : after (exec .encode beforeP1) = some afterP1 := by decide +kernel
  obtain ⟨t, ht⟩ := exec_next .encode beforeP1
  rw [ht] at h ⊢
  exact ⟨congrArg _ (Option.some.inj h), rfl, by decide⟩

/-- The reset state with a host that makes one access. -/
def withAccess (a : Access) : State := { State.reset with pending := [a] }

theorem witness_PlatformReset : (withAccess .reset).pending = .reset :: [] := rfl

theorem witness_EncodeThenDecode : Instr.wf .cipher = true ∧ Instr.wf .encode = true ∧ Instr.wf .decode = true :=
  ⟨rfl, rfl, rfl⟩

/-- DecoderIsTheTable: the reserved words next to the table's. -/
theorem witness_DecoderIsTheTable :
    (0x00000100#32).extractLsb' 8 24 ≠ 0#24 ∧
    ((0x00000004#32).extractLsb' 8 24 = 0#24 ∧ (0x00000004#32).extractLsb' 0 8 ≠ 1#8 ∧
      (0x00000004#32).extractLsb' 0 8 ≠ 2#8 ∧ (0x00000004#32).extractLsb' 0 8 ≠ 3#8) := by decide

theorem witness_IllegalWord :
    (withAccess (.writeReg 4 0x00 0x00000004#32)).pending = .writeReg 4 0x00 0x00000004#32 :: [] ∧
    0x00000004#32 ≠ 0x00000001#32 ∧ 0x00000004#32 ≠ 0x00000002#32 ∧ 0x00000004#32 ≠ 0x00000003#32 := by decide

theorem witness_StepRunsCommand :
    (withAccess (.writeReg 4 0x00 3#32)).pending = .writeReg 4 0x00 3#32 :: [] ∧ decode 3#32 = .ok .decode ∧
    decodeTableWord 32 3 = some .decode := ⟨rfl, rfl, rfl⟩

theorem witness_IdleStep : State.reset.pending = [] := rfl

theorem witness_RegisterRead : (withAccess (.readReg 4 0x1C)).pending = .readReg 4 0x1C :: [] := rfl

theorem witness_RegisterWrite :
    (withAccess (.writeReg 4 0x04 5#32)).pending = .writeReg 4 0x04 5#32 :: [] ∧ ¬((4 : Nat) = 4 ∧ (0x04 : Nat) = 0x00) := by
  decide

/-- OutsideRegisterFile: a byte access, a misaligned word and the first offset past the file, read and written. -/
theorem witness_OutsideRegisterFile :
    ((1 : Nat) ≠ 4 ∧ (withAccess (.readReg 1 0x08)).pending = .readReg 1 0x08 :: []) ∧
    ((0x0A : Nat) % 4 ≠ 0 ∧ (withAccess (.writeReg 4 0x0A 7#32)).pending = .writeReg 4 0x0A 7#32 :: []) ∧
    ((0x20 : Nat) ≤ 0x20 ∧ (withAccess (.readReg 4 0x20)).pending = .readReg 4 0x20 :: []) := by decide

theorem witness_WidthAndHeight : ∃ t, runCommand 2#32 beforeP1 = .next t := ⟨_, witness_encode_p1.1⟩

/-- LengthRegisters: one past `MSG_BYTES`, one past `KEY_BYTES`, and the empty key. -/
theorem witness_LengthRegisters :
    (∃ t, runCommand 2#32 beforeP1 = .next t) ∧
    ({ State.reset with mlen := 17 } : State).params.msgBytes < ({ State.reset with mlen := 17 } : State).mlen.toNat ∧
    ({ State.reset with klen := 17 } : State).params.keyBytes < ({ State.reset with klen := 17 } : State).klen.toNat ∧
    State.reset.klen = 0 := ⟨⟨_, witness_encode_p1.1⟩, by decide, by decide, rfl⟩

/-- HostStore and HostLoad at the last offset of `MSG`, HostOutsideSpace at the first one past it. -/
theorem witness_HostAccess :
    ((withAccess (.storeByte .msg 15 0x48)).pending = .storeByte .msg 15 0x48 :: [] ∧
      15 < (withAccess (.storeByte .msg 15 0x48)).params.size .msg) ∧
    ((withAccess (.loadByte .msg 15)).pending = .loadByte .msg 15 :: [] ∧
      15 < (withAccess (.loadByte .msg 15)).params.size .msg) ∧
    ((withAccess (.storeByte .msg 16 0x48)).params.size .msg ≤ 16 ∧
      (withAccess (.storeByte .msg 16 0x48)).pending = .storeByte .msg 16 0x48 :: []) ∧
    ((withAccess (.loadByte .msg 16)).params.size .msg ≤ 16 ∧
      (withAccess (.loadByte .msg 16)).pending = .loadByte .msg 16 :: []) := by decide

theorem witness_XorStreamBytes : ([0x4B] : List Byte) ≠ [] ∧ 1 < ([0x48, 0x49] : List Byte).length := by decide

theorem witness_XorStreamSelfInverse : 1 < ([0x48, 0x49] : List Byte).length := by decide

/-- FramerBits: the first and last bit of a byte, the last whole group of 11 bits, and a header of 32 bits. -/
theorem witness_FramerBits :
    (0 < ([0x80, 0x01] : List Byte).length ∧ 0 < 8) ∧ (1 < ([0x80, 0x01] : List Byte).length ∧ 7 < 8) ∧
    0 < (List.replicate 11 true).length / 8 ∧ 31 < 32 ∧ (List.replicate 32 true).length = 32 := by decide

/-- FrameLayout and FramerInverses. -/
theorem witness_FrameLayout :
    8 * ([0x03, 0x02] : List Byte).length < 2 ^ 32 ∧ 31 < 32 ∧ 1 < ([0x03, 0x02] : List Byte).length ∧ 7 < 8 ∧
    (List.replicate 16 true).length % 8 = 0 ∧ (List.replicate 32 true).length = 32 := by decide

/-- FecBits and FecUnderFlips: the last bit of a coded sequence, the last group, an error sequence, a group boundary. -/
theorem witness_Fec :
    8 < 3 * [true, false, true].length ∧ 1 < [true, true, true, false, false, false, true].length / 3 ∧
    [true, false, false, false, true, true].length = 3 * [true, false].length ∧ 1 < [true, false].length ∧
    [true, false, true].length % 3 = 0 := by decide

/-- CapacityIsExact: an empty image. -/
theorem witness_CapacityIsExact : regRead { State.reset with height := 7 } .width = 0 := by decide

/-- AlphaForceBytes: the last pixel of the buffer, and the byte next to its alpha. -/
theorem witness_AlphaForceBytes : 1 < npix twoPixels ∧
    ¬((Space.pix = .pix) ∧ ∃ p, p < npix twoPixels ∧ 6 = 4 * p + 3) :=
  ⟨by decide, fun h => by obtain ⟨-, p, -, hp⟩ := h; omega⟩

/-- EmbedBytes: `CAP` + 1 bits, and exactly `CAP` bits with the last of them, the last alpha, and a byte outside. -/
theorem witness_EmbedBytes :
    cap twoPixels < (List.replicate 7 true).length ∧ (List.replicate 6 true).length ≤ cap twoPixels ∧
    5 < (List.replicate 6 true).length ∧ 1 < npix twoPixels ∧
    ¬((Space.pix = .pix) ∧ ((∃ n, n < (List.replicate 6 true).length ∧ 8 = 4 * (n / 3) + n % 3) ∨
      ∃ p, p < npix twoPixels ∧ 8 = 4 * p + 3)) := by
  refine ⟨by decide, by decide, by decide, by decide, ?_⟩
  rintro ⟨-, ⟨n, hn, h⟩ | ⟨p, -, h⟩⟩
  · simp at hn; omega
  · omega

/-- EmbedPreserves: two bits in two pixels, a channel byte below and one past the coded length. -/
theorem witness_EmbedPreserves :
    (∃ u, embed [true, true] twoPixels = .ok u) ∧ 1 < npix twoPixels ∧ 2 < 3 ∧ [true, true].length ≤ 3 * 1 + 2 :=
  ⟨⟨_, rfl⟩, by decide, by decide, by decide⟩

/-- ExtractBits: one bit past the capacity, and a region that ends at it. -/
theorem witness_ExtractBits : cap twoPixels < 0 + 7 ∧ 3 + 3 ≤ cap twoPixels ∧ 2 < 3 := by decide

/-- HeaderValidation: V-PIX 15 and 16, and zero. -/
theorem witness_HeaderValidation :
    (0 < 4064 ∧ 4064 % 8 = 0 ∧ 96 + 3 * 4064 ≤ cap { State.reset with width := 64, height := 64 }) ∧
    ¬(0 < 4072 ∧ 4072 % 8 = 0 ∧ 96 + 3 * 4072 ≤ cap { State.reset with width := 64, height := 64 }) ∧
    ¬(0 < 0 ∧ 0 % 8 = 0 ∧ 96 + 3 * 0 ≤ cap { State.reset with width := 64, height := 64 }) := by decide

/-- PixelClosedForm: a Frame that fills the buffer, its last pixel, a byte past the buffer, and a region to its end. -/
theorem witness_PixelClosedForm :
    3 * [true, false].length ≤ cap twoPixels ∧ 1 < npix twoPixels ∧ 2 < 3 ∧ 4 * npix twoPixels ≤ 8 ∧
    1 + 1 ≤ npix twoPixels := by decide

/-- CipherResult: P11's lengths, and MLEN one past `MSG_BYTES`. -/
theorem witness_CipherResult :
    (beforeP1.mlen.toNat ≤ beforeP1.params.msgBytes ∧ beforeP1.mlen.toNat ≤ beforeP1.params.outBytes ∧
      beforeP1.klen.toNat ≤ beforeP1.params.keyBytes) ∧
    ¬(({ beforeP1 with mlen := 17 } : State).mlen.toNat ≤ ({ beforeP1 with mlen := 17 } : State).params.msgBytes ∧
      ({ beforeP1 with mlen := 17 } : State).mlen.toNat ≤ ({ beforeP1 with mlen := 17 } : State).params.outBytes ∧
      ({ beforeP1 with mlen := 17 } : State).klen.toNat ≤ ({ beforeP1 with mlen := 17 } : State).params.keyBytes) := by
  decide

/-- EncodeResult at exact capacity: the last pixel, a colour channel, a byte past the buffer. -/
theorem witness_EncodeResult :
    beforeP1.mlen.toNat ≤ beforeP1.params.msgBytes ∧ beforeP1.klen.toNat ≤ beforeP1.params.keyBytes ∧
    4 * npix beforeP1 ≤ beforeP1.params.pixBytes ∧ 32 + 8 * beforeP1.mlen.toNat ≤ npix beforeP1 ∧
    47 < npix beforeP1 ∧ 2 < 3 ∧ 4 * npix beforeP1 ≤ 192 := by decide

theorem witness_headerLen : headerLen afterP1 = 16 := by decide +kernel

/-- The header of P6 (a): pixel 27 zeroed. -/
def zeroedHeader : State := { afterP1 with pix := ((stegoHi.put 108 0x6C).put 109 0x6C).put 110 0x6E }

theorem witness_headerLen_zeroed : headerLen zeroedHeader = 0 := by decide +kernel

/-- DecodeResult, clause by clause: P1, a key one byte too long, 31 pixels, and P6 (a). -/
theorem witness_DecodeResult :
    (afterP1.klen.toNat ≤ afterP1.params.keyBytes ∧ 4 * npix afterP1 ≤ afterP1.params.pixBytes ∧ 32 ≤ npix afterP1 ∧
      0 < headerLen afterP1 ∧ headerLen afterP1 % 8 = 0 ∧ 32 + headerLen afterP1 ≤ npix afterP1) ∧
    ¬(({ State.reset with klen := 17 } : State).klen.toNat ≤ ({ State.reset with klen := 17 } : State).params.keyBytes ∧
      4 * npix { State.reset with klen := 17 } ≤ ({ State.reset with klen := 17 } : State).params.pixBytes) ∧
    (fitsDecode { State.reset with width := 31, height := 1 } = true ∧
      npix { State.reset with width := 31, height := 1 } < 32) ∧
    (fitsDecode zeroedHeader = true ∧ 32 ≤ npix zeroedHeader ∧ ¬(0 < headerLen zeroedHeader)) := by
  rw [witness_headerLen, witness_headerLen_zeroed]
  decide

/-- FailurePriority and Admissibility: each clause of each command. -/
theorem witness_FailurePriority :
    (4#32 ≠ 1#32 ∧ 4#32 ≠ 2#32 ∧ 4#32 ≠ 3#32) ∧
    fitsCipher { beforeP1 with klen := 17 } = false ∧ fitsCipher beforeP1 = true ∧
    fitsEncode { beforeP1 with klen := 17 } = false ∧
    (fitsEncode { beforeP1 with width := 47, height := 1 } = true ∧
      cap { beforeP1 with width := 47, height := 1 } < 3 * (32 + 8 * 2)) ∧
    (fitsEncode beforeP1 = true ∧ 3 * (32 + 8 * beforeP1.mlen.toNat) ≤ cap beforeP1) ∧
    fitsDecode { beforeP1 with klen := 17 } = false ∧
    (fitsDecode State.reset = true ∧ cap State.reset < 96) ∧
    (fitsDecode zeroedHeader = true ∧ 96 ≤ cap zeroedHeader ∧ headerLen zeroedHeader = 0) ∧
    (fitsDecode afterP1 = true ∧ 96 ≤ cap afterP1 ∧ headerLen afterP1 ≠ 0 ∧ headerLen afterP1 % 8 = 0 ∧
      96 + 3 * headerLen afterP1 ≤ cap afterP1) := by
  rw [witness_headerLen, witness_headerLen_zeroed]
  decide

theorem witness_FailuresArePrecise :
    runCommand 3#32 State.reset = .next (raise .truncatedExtraction State.reset) ∧
    (raise .truncatedExtraction State.reset).status ≠ .ok :=
  ⟨exec_decode_truncated (by decide) (by decide), by decide⟩

theorem witness_CommandsAlwaysEnd : 0#32 ≠ 1#32 ∧ 0#32 ≠ 2#32 ∧ 0#32 ≠ 3#32 := by decide

/-- OutputRegisters, clause by clause: a failure, and a success of each command. -/
theorem witness_OutputRegisters :
    (∃ t, runCommand 3#32 State.reset = .next t ∧ t.status ≠ .ok) ∧
    (∃ t, runCommand 1#32 beforeP1 = .next t ∧ t.status = .ok) ∧
    (∃ t, runCommand 2#32 beforeP1 = .next t ∧ t.status = .ok) ∧
    (∃ t, runCommand 3#32 afterP1 = .next t ∧ t.status = .ok) :=
  ⟨⟨_, witness_FailuresArePrecise.1, by decide⟩, ⟨_, exec_cipher_ok (s := beforeP1) (by decide), rfl⟩,
    ⟨_, witness_encode_p1.1, rfl⟩,
    ⟨_, exec_decode_ok (s := afterP1) (by decide) witness_headerLen (by decide) (by decide) (by decide), rfl⟩⟩

/-- CommandFrame: ENCODE of P1 with the first byte past the buffer, and CIPHER with the first byte past OLEN. -/
theorem witness_CommandFrame :
    exec .encode beforeP1 = .next afterP1 ∧ 4 * npix beforeP1 ≤ 192 ∧
    exec .cipher beforeP1 = .next (cipherPost beforeP1) ∧ (cipherPost beforeP1).olen.toNat ≤ 2 :=
  ⟨witness_encode_p1.1, by decide, exec_cipher_ok (by decide), by rw [cipherPost_olen]; decide⟩

theorem witness_OnlyPixelCountMatters : (48#16).toNat * (1#16).toNat = npix beforeP1 := by decide

/-- DecodeReadsOnly: other alpha bytes, message and outputs. -/
theorem witness_DecodeReadsOnly :
    (State.params { afterP1 with pix := stegoHi.put 3 0x00, mlen := 9, msg := [], out := [], olen := 7 }) = afterP1.params ∧
    npix { afterP1 with pix := stegoHi.put 3 0x00, mlen := 9, msg := [], out := [], olen := 7 } = npix afterP1 ∧
    SameKey afterP1 { afterP1 with pix := stegoHi.put 3 0x00, mlen := 9, msg := [], out := [], olen := 7 } ∧
    (∀ p ch, p < npix afterP1 → ch < 3 →
      lsb { afterP1 with pix := stegoHi.put 3 0x00, mlen := 9, msg := [], out := [], olen := 7 } p ch =
        lsb afterP1 p ch) := by
  refine ⟨rfl, rfl, ⟨rfl, fun _ _ => rfl⟩, fun p ch _ hc => ?_⟩
  have h : 4 * p + ch ≠ 3 := by omega
  simp only [lsb, memRead, State.mem, get?_put_ne stegoHi 0x00 h]
  rfl

theorem witness_ThirtyTwoPixels :
    fitsDecode { State.reset with width := 32, height := 1 } = true ∧
    npix { State.reset with width := 32, height := 1 } = 32 := by decide

/-- EmptyMessage and LargestMessage: program P9. -/
theorem witness_EmptyMessage :
    fitsEncode { State.reset with width := 8, height := 4, klen := 1 } = true ∧
    ({ State.reset with width := 8, height := 4, klen := 1 } : State).mlen = 0 ∧
    32 ≤ npix { State.reset with width := 8, height := 4, klen := 1 } := by decide

/-- RoundTrip: P1, with the alpha byte of pixel 0 and a byte past the payload's bits changed. -/
theorem witness_RoundTrip :
    SameSetup afterP1 { afterP1 with pix := stegoHi.put 3 0x00 } ∧
    SameKey afterP1 { afterP1 with pix := stegoHi.put 3 0x00 } ∧
    SamePayload afterP1 { afterP1 with pix := stegoHi.put 3 0x00 } (32 + 8 * beforeP1.mlen.toNat) := by
  refine ⟨⟨rfl, rfl, rfl⟩, ⟨rfl, fun _ _ => rfl⟩, ?_⟩
  unfold SamePayload
  decide +kernel

/-- SingleFlipsAreCorrected: program P3, with one flip in each of pixels 5 and 40. -/
theorem witness_SingleFlips :
    SameSetup afterP1 { afterP1 with pix := (stegoHi.put 21 0x15).put 162 0xA3 } ∧
    SameKey afterP1 { afterP1 with pix := (stegoHi.put 21 0x15).put 162 0xA3 } ∧
    (∀ p, p < 32 + 8 * beforeP1.mlen.toNat →
      flips afterP1 { afterP1 with pix := (stegoHi.put 21 0x15).put 162 0xA3 } p ≤ 1) ∧
    flips afterP1 { afterP1 with pix := (stegoHi.put 21 0x15).put 162 0xA3 } 5 = 1 := by
  refine ⟨⟨rfl, rfl, rfl⟩, ⟨rfl, fun _ _ => rfl⟩, ?_, ?_⟩
  · decide +kernel
  · decide +kernel

/-- TwoFlipsAreSilent: program P4, with two flips in pixel 33. -/
theorem witness_TwoFlips :
    32 ≤ 33 ∧ 33 < 32 + 8 * beforeP1.mlen.toNat ∧
    2 ≤ flips afterP1 { afterP1 with pix := (stegoHi.put 132 0x85).put 133 0x85 } 33 ∧
    SameSetup afterP1 { afterP1 with pix := (stegoHi.put 132 0x85).put 133 0x85 } ∧
    SameKey afterP1 { afterP1 with pix := (stegoHi.put 132 0x85).put 133 0x85 } ∧
    (∀ p, p < 32 + 8 * beforeP1.mlen.toNat → p ≠ 33 →
      flips afterP1 { afterP1 with pix := (stegoHi.put 132 0x85).put 133 0x85 } p = 0) := by
  refine ⟨by decide, by decide, ?_, ⟨rfl, rfl, rfl⟩, ⟨rfl, fun _ _ => by simp only [memRead, State.mem]⟩, ?_⟩
  · decide +kernel
  · decide +kernel

/-- ZeroedHeader: P6 (a). -/
theorem witness_ZeroedHeader :
    fitsDecode zeroedHeader = true ∧ 32 ≤ npix zeroedHeader ∧
    (∀ p, p < 32 → ∀ ch, ch < 3 → lsb zeroedHeader p ch = false) := by
  refine ⟨by decide, by decide, ?_⟩
  decide +kernel

/-- WrongKey: program P7, key "J". -/
theorem witness_WrongKey :
    SameSetup afterP1 { afterP1 with key := [(0, 0x4A)] } ∧
    ({ afterP1 with key := [(0, 0x4A)] } : State).klen.toNat ≤
      ({ afterP1 with key := [(0, 0x4A)] } : State).params.keyBytes ∧
    SamePayload afterP1 { afterP1 with key := [(0, 0x4A)] } (32 + 8 * beforeP1.mlen.toNat) := by
  refine ⟨⟨rfl, rfl, rfl⟩, by decide, ?_⟩
  unfold SamePayload
  decide +kernel

/-- MemoryInvariantKept and OutputInvariantKept: a state with all four memories in use, before a step that runs ENCODE. -/
theorem witness_Invariants :
    (State.withFetchWord beforeP1 32 2).MemInv ∧ (State.withFetchWord beforeP1 32 2).OutInv ∧
    (State.withFetchWord beforeP1 32 2).params.wf = true ∧
    step (State.withFetchWord beforeP1 32 2) = .next afterP1 := by
  refine ⟨⟨by decide, fun sp => ?_, fun sp => ?_⟩, ⟨by decide, by decide, by decide, by decide⟩, by decide,
    ?_⟩
  · have h : Memory.wf (ramp 192) := by decide +kernel
    cases sp with
    | pix => exact h
    | msg => exact (by decide : Memory.wf beforeP1.msg)
    | key => exact (by decide : Memory.wf beforeP1.key)
    | out => exact (by decide : Memory.wf beforeP1.out)
  · have h : ∀ c ∈ ramp 192, c.1 < 1024 := by decide +kernel
    cases sp with
    | pix => exact h
    | msg => exact (by decide : ∀ c ∈ beforeP1.msg, c.1 < 16)
    | key => exact (by decide : ∀ c ∈ beforeP1.key, c.1 < 16)
    | out => exact (by decide : ∀ c ∈ beforeP1.out, c.1 < 28)
  · rw [step_serve (s := State.withFetchWord beforeP1 32 2) rfl, serve_cmd]
    exact (show runCommand 2#32 beforeP1 = .next afterP1 from witness_encode_p1.1)

/-- InvariantsAtReset. -/
theorem witness_InvariantsAtReset : (Params.mk 16384 16 16 508).wf = true := by decide

end Sys2Proof.Tests
end

/-! # The state, its registers and its two invariants (10_state.md)

What a command keeps and what it leaves in the output registers is read off `exec_cases`, what a step keeps off
`step_cases`; the obligations are short uses of these. -/

namespace Sys2Proof.Machine

/-! ### Registers as the host sees them (R9 to R18, R25) -/

/-- A register is reached by a whole-word access at its own offset, and by no other (R9, R25). -/
theorem regAt_eq_some_iff {size offset : Nat} {r : Reg} :
    regAt size offset = some r ↔ size = 4 ∧ offset = r.offset := by
  constructor
  · intro h
    rw [regAt_eq] at h
    split_ifs at h <;> cases h <;> assumption
  · rintro ⟨rfl, rfl⟩
    cases r <;> rfl

theorem regAt_eq_none_iff {size offset : Nat} :
    regAt size offset = none ↔ ∀ r : Reg, ¬(size = 4 ∧ offset = r.offset) := by
  simp only [Option.eq_none_iff_forall_ne_some, ne_eq, regAt_eq_some_iff]

/-- A narrow, wide or misaligned access, and one at 0x20 or above, reaches no register (R25). -/
theorem regAt_outside {size offset : Nat} (h : size ≠ 4 ∨ offset % 4 ≠ 0 ∨ 0x20 ≤ offset) :
    regAt size offset = none := by
  refine regAt_eq_none_iff.mpr fun r ⟨hsize, hoff⟩ => ?_
  have hr : r.offset % 4 = 0 ∧ r.offset < 0x20 := by cases r <;> decide
  omega

/-- A host write that is no command only stores (R10). -/
theorem serve_writeReg {size offset : Nat} (h : ¬(size = 4 ∧ offset = 0x00)) (v : Word) (s : State) :
    serve (.writeReg size offset v) s = .next (hostRegWrite s size offset v) :=
  if_neg (mt regAt_eq_some_iff.mp h)

theorem serve_readReg (size offset : Nat) (s : State) :
    serve (.readReg size offset) s = .next (reply (.word (hostRegRead s size offset)) s) := rfl

theorem hostRegRead_of_none {size offset : Nat} (h : regAt size offset = none) (s : State) :
    hostRegRead s size offset = 0 := by
  rw [hostRegRead, h]

theorem hostRegWrite_of_none {size offset : Nat} (h : regAt size offset = none) (s : State) (v : Word) :
    hostRegWrite s size offset v = s := by
  rw [hostRegWrite, h]

/-- What a host read returns, at every size and offset; CMD reads as 0 (R9 to R17, R25). -/
theorem hostRegRead_eq (s : State) (size offset : Nat) : hostRegRead s size offset =
    if size = 4 ∧ offset = 0x04 then s.status.code.setWidth 32
    else if size = 4 ∧ offset = 0x08 then s.width.setWidth 32
    else if size = 4 ∧ offset = 0x0C then s.height.setWidth 32
    else if size = 4 ∧ offset = 0x10 then s.mlen
    else if size = 4 ∧ offset = 0x14 then s.klen
    else if size = 4 ∧ offset = 0x18 then s.olen
    else if size = 4 ∧ offset = 0x1C then s.corrected
    else 0 := by
  cases hr : regAt size offset with
  | some r =>
    obtain ⟨rfl, rfl⟩ := regAt_eq_some_iff.mp hr
    cases r <;> rfl
  | none =>
    rw [hostRegRead_of_none hr]
    rw [regAt_eq] at hr
    split_ifs at hr ⊢
    rfl

/-- What a host write stores, at every size and offset (R9 to R17, R25). -/
theorem hostRegWrite_eq (s : State) (size offset : Nat) (v : Word) : hostRegWrite s size offset v =
    { s with
      width := if size = 4 ∧ offset = 0x08 then v.setWidth 16 else s.width
      height := if size = 4 ∧ offset = 0x0C then v.setWidth 16 else s.height
      mlen := if size = 4 ∧ offset = 0x10 then v else s.mlen
      klen := if size = 4 ∧ offset = 0x14 then v else s.klen } := by
  cases hr : regAt size offset with
  | some r =>
    obtain ⟨rfl, rfl⟩ := regAt_eq_some_iff.mp hr
    cases r <;> rfl
  | none =>
    rw [hostRegWrite_of_none hr]
    rw [regAt_eq] at hr
    split_ifs at hr ⊢
    rfl

@[simp] theorem toNat_regRead_width (s : State) : (regRead s .width).toNat = s.width.toNat :=
  BitVec.toNat_setWidth_of_le (by decide)

@[simp] theorem toNat_regRead_height (s : State) : (regRead s .height).toNat = s.height.toNat :=
  BitVec.toNat_setWidth_of_le (by decide)

/-! ### Every command ends, and keeps its inputs (R33, R81) -/

theorem runCommand_of_decode {w : Word} {i : Instr} (h : Sys2Proof.decode w = .ok i) (s : State) :
    runCommand w s = exec i s := by
  rw [runCommand, h]

/-- Every next state of a command word: the next state of its command, or the failure of an illegal word. -/
theorem runCommand_inv {w : Word} {s t : State} (h : runCommand w s = .next t) :
    (∃ i, Sys2Proof.decode w = .ok i ∧ exec i s = .next t) ∨ t = raise .illegalCommand s := by
  rcases runCommand_cases w s with ⟨i, hw, hi⟩ | hr
  · exact .inl ⟨i, hw, hi ▸ h⟩
  · exact .inr (Host.Outcome.next.inj (h.symm.trans hr))

theorem runCommand_next (w : Word) (s : State) : ∃ t, runCommand w s = .next t := by
  rcases runCommand_cases w s with ⟨i, -, hi⟩ | hr
  · exact hi ▸ exec_next i s
  · exact ⟨_, hr⟩

theorem raise_sameInputs (f : Failure) (s : State) : SameInputs s (raise f s) := by simp [SameInputs]

theorem exec_sameInputs {i : Instr} {s t : State} (h : exec i s = .next t) : SameInputs s t := by
  rcases exec_cases h with ⟨-, -, rfl⟩ | ⟨-, -, -, rfl⟩ | ⟨L, -, -, -, -, -, -, rfl⟩ | ⟨f, rfl, -⟩
  · simp [SameInputs]
  · simp [SameInputs]
  · simp [SameInputs]
  · exact raise_sameInputs f s

theorem runCommand_sameInputs {w : Word} {s t : State} (h : runCommand w s = .next t) : SameInputs s t := by
  rcases runCommand_inv h with ⟨i, -, hi⟩ | rfl
  · exact exec_sameInputs hi
  · exact raise_sameInputs _ s

/-! ### What a command leaves in the output registers (R16, R17, R81) -/

/-- A command that does not end with STATUS 0 has raised a failure, and done nothing else. -/
theorem exec_of_not_ok {i : Instr} {s t : State} (h : exec i s = .next t) (hst : t.status ≠ .ok) :
    ∃ f, t = raise f s := by
  rcases exec_cases h with ⟨-, -, rfl⟩ | ⟨-, -, -, rfl⟩ | ⟨L, -, -, -, -, -, -, rfl⟩ | ⟨f, rfl, -⟩
  · exact absurd rfl hst
  · exact absurd rfl hst
  · exact absurd rfl hst
  · exact ⟨f, rfl⟩

theorem runCommand_of_not_ok {w : Word} {s t : State} (h : runCommand w s = .next t) (hst : t.status ≠ .ok) :
    ∃ f, t = raise f s := by
  rcases runCommand_inv h with ⟨i, -, hi⟩ | rfl
  · exact exec_of_not_ok hi hst
  · exact ⟨_, rfl⟩

theorem exec_cipher_of_ok {s t : State} (h : exec .cipher s = .next t) (hst : t.status = .ok) :
    t = cipherPost s := by
  rcases exec_cases h with ⟨-, -, rfl⟩ | ⟨hi, -⟩ | ⟨L, hi, -⟩ | ⟨f, rfl, -⟩
  · rfl
  · cases hi
  · cases hi
  · cases hst

theorem exec_encode_of_ok {s t : State} (h : exec .encode s = .next t) (hst : t.status = .ok) :
    t = encodePost s := by
  rcases exec_cases h with ⟨hi, -⟩ | ⟨-, -, -, rfl⟩ | ⟨L, hi, -⟩ | ⟨f, rfl, -⟩
  · cases hi
  · rfl
  · cases hi
  · cases hst

theorem exec_decode_of_ok {s t : State} (h : exec .decode s = .next t) (hst : t.status = .ok) :
    ∃ L, headerLen s = L ∧ 32 + L ≤ npix s ∧ t = decodePost s L := by
  rcases exec_cases h with ⟨hi, -⟩ | ⟨hi, -⟩ | ⟨L, -, -, hL, -, -, hn, rfl⟩ | ⟨f, rfl, -⟩
  · cases hi
  · cases hi
  · exact ⟨L, hL, hn, rfl⟩
  · cases hst

/-- The count of DECODE does not wrap, since the buffer has fewer than `2^32` pixels (R17, R18). -/
theorem decodePost_corrected_toNat {s : State} {L : Nat} (hn : 32 + L ≤ npix s) :
    (decodePost s L).corrected.toNat = corrections s (32 + L) := by
  have hc := corrections_le s (32 + L)
  have hp := npix_le s
  rw [decodePost_corrected, BitVec.toNat_ofNat, Nat.mod_eq_of_lt (by omega)]

/-- The length DECODE writes does not wrap either (R16). -/
theorem decodePost_olen_toNat {s : State} {L : Nat} (hn : 32 + L ≤ npix s) :
    (decodePost s L).olen.toNat = L / 8 := by
  have hp := npix_le s
  rw [decodePost_olen, BitVec.toNat_ofNat, Nat.mod_eq_of_lt (by omega)]

/-! ### The invariant of the memories -/

/-- R4's `OUT_BYTES >= MAXDEC` is what makes every decoded message fit `OUT`. -/
theorem decoded_fits_out {s : State} {L : Nat} (hp : s.params.wf = true) (hfit : fitsDecode s = true)
    (hn : 32 + L ≤ npix s) : L / 8 ≤ s.params.outBytes := by
  obtain ⟨-, hpix⟩ := (fitsDecode_iff s).mp hfit
  have hmax : s.params.maxDec ≤ s.params.outBytes := by
    simp only [Params.wf, Params.outOk, Bool.and_eq_true, decide_eq_true_eq] at hp
    obtain ⟨-, -, hmax⟩ := hp
    exact hmax
  rw [Params.maxDec, if_pos (by omega)] at hmax
  omega

theorem cipherPost_memInv {s : State} (h : s.MemInv) (hfit : fitsCipher s = true) : (cipherPost s).MemInv := by
  obtain ⟨-, hout, -⟩ := (fitsCipher_iff s).mp hfit
  exact succeed_memInv _ _ (writeBytes_memInv h (by simpa [Params.size] using hout))

theorem encodePost_memInv {s : State} (h : s.MemInv) (hfit : fitsEncode s = true)
    (hn : 32 + 8 * s.mlen.toNat ≤ npix s) : (encodePost s).MemInv := by
  obtain ⟨-, -, hpix⟩ := (fitsEncode_iff s).mp hfit
  exact succeed_memInv _ _ (embed_memInv h hpix (by
    rw [cap_eq, fecEnc_length, frame_length, List.length_map, List.length_range]; omega))

theorem decodePost_memInv {s : State} {L : Nat} (h : s.MemInv) (hfit : fitsDecode s = true)
    (hn : 32 + L ≤ npix s) : (decodePost s L).MemInv :=
  succeed_memInv _ _ (writeBytes_memInv h (by simpa [Params.size] using decoded_fits_out h.sizes hfit hn))

theorem exec_memInv {i : Instr} {s t : State} (hs : s.MemInv) (h : exec i s = .next t) : t.MemInv := by
  rcases exec_cases h with ⟨-, hfit, rfl⟩ | ⟨-, hfit, hn, rfl⟩ | ⟨L, -, hfit, -, -, -, hn, rfl⟩ | ⟨f, rfl, -⟩
  · exact cipherPost_memInv hs hfit
  · exact encodePost_memInv hs hfit hn
  · exact decodePost_memInv hs hfit hn
  · exact raise_memInv f hs

theorem runCommand_memInv {w : Word} {s t : State} (hs : s.MemInv) (h : runCommand w s = .next t) : t.MemInv := by
  rcases runCommand_inv h with ⟨i, -, hi⟩ | rfl
  · exact exec_memInv hs hi
  · exact raise_memInv _ hs

theorem withPending_memInv {s : State} (h : s.MemInv) (l : List Access) : State.MemInv { s with pending := l } :=
  MemInv.of_mem h rfl (mem_withPending s l)

theorem step_memInv {s t : State} (hs : s.MemInv) (h : step s = .next t) : t.MemInv := by
  rcases step_cases h with ⟨-, rfl⟩ | ⟨a, rest, -, hcase⟩
  · exact hs
  have hs' := withPending_memInv hs rest
  rcases hcase with ⟨w, -, hw⟩ | ⟨n, o, v, -, -, rfl⟩ | ⟨r, rfl⟩ | ⟨sp, o, v, -, ho, rfl⟩ | ⟨-, rfl⟩
  · exact runCommand_memInv hs' hw
  · exact MemInv.of_mem hs' (hostRegWrite_params ..) (hostRegWrite_mem _ n o v)
  · exact MemInv.of_mem hs' rfl (reply_mem r _)
  · exact memWrite_memInv v hs' ho
  · exact platformReset_memInv hs'

theorem step_params {s t : State} (h : step s = .next t) : t.params = s.params := by
  rcases step_cases h with ⟨-, rfl⟩ | ⟨a, rest, -, hcase⟩
  · rfl
  rcases hcase with ⟨w, -, hw⟩ | ⟨n, o, v, -, -, rfl⟩ | ⟨r, rfl⟩ | ⟨sp, o, v, -, -, rfl⟩ | ⟨-, rfl⟩
  · obtain ⟨-, -, -, -, hp, -⟩ := runCommand_sameInputs hw
    exact hp
  · simp
  · simp
  · simp
  · simp

/-- Settles O56: the invariant is kept by every case of `step_cases`; a command writes within the extents its
admissibility check passed (R39), DECODE within `OUT` by R4. -/
theorem memoryInvariantKept : Obligations.MemoryInvariantKept :=
  fun _ _ hs h => ⟨step_memInv hs h, step_params h⟩

/-! ### The invariant of the output registers -/

/-- The invariant of the output registers looks at the three of them and the sizes only. -/
theorem OutInv.of_outputs {s t : State} (h : s.OutInv) (hp : t.params = s.params) (hst : t.status = s.status)
    (ho : t.olen = s.olen) (hc : t.corrected = s.corrected) : t.OutInv where
  codeFour := hst ▸ h.codeFour
  failedZero := by rw [hst, ho, hc]; exact h.failedZero
  olenFits := by rw [ho, hp]; exact h.olenFits
  correctedBound := by rw [ho, hc]; exact h.correctedBound

/-- Where both counters are 0 only the status is left to look at. -/
theorem OutInv.of_zero {t : State} (hst : t.status ≠ .failed .imageLoadFailure) (ho : t.olen = 0)
    (hc : t.corrected = 0) : t.OutInv where
  codeFour := hst
  failedZero _ := ⟨ho, hc⟩
  olenFits := by simp [ho]
  correctedBound := by simp [hc]

theorem raise_outInv {f : Failure} (hf : f ≠ .imageLoadFailure) (s : State) : (raise f s).OutInv :=
  OutInv.of_zero (by simpa using hf) rfl rfl

theorem cipherPost_outInv {s : State} (hfit : fitsCipher s = true) : (cipherPost s).OutInv where
  codeFour := by simp
  failedZero h := absurd rfl h
  olenFits := by
    obtain ⟨-, hout, -⟩ := (fitsCipher_iff s).mp hfit
    simpa using hout
  correctedBound := by simp

theorem encodePost_outInv (s : State) : (encodePost s).OutInv := OutInv.of_zero (by simp) rfl rfl

theorem decodePost_outInv {s : State} {L : Nat} (hp : s.params.wf = true) (hfit : fitsDecode s = true)
    (h8 : L % 8 = 0) (hn : 32 + L ≤ npix s) : (decodePost s L).OutInv where
  codeFour := by simp
  failedZero h := absurd rfl h
  olenFits := by
    rw [decodePost_olen_toNat hn, decodePost_params]
    exact decoded_fits_out hp hfit hn
  correctedBound := by
    rw [decodePost_olen_toNat hn, decodePost_corrected_toNat hn]
    have hc := corrections_le s (32 + L)
    omega

theorem exec_outInv {i : Instr} {s t : State} (hp : s.params.wf = true) (h : exec i s = .next t) : t.OutInv := by
  rcases exec_cases h with ⟨-, hfit, rfl⟩ | ⟨-, -, -, rfl⟩ | ⟨L, -, hfit, -, -, h8, hn, rfl⟩ | ⟨f, rfl, hf⟩
  · exact cipherPost_outInv hfit
  · exact encodePost_outInv s
  · exact decodePost_outInv hp hfit h8 hn
  · refine raise_outInv ?_ s
    rcases hf with rfl | ⟨rfl, -⟩ | ⟨rfl | rfl, -⟩ <;> decide

/-- Every command leaves consistent output registers, whatever they held before it. -/
theorem runCommand_outInv {w : Word} {s t : State} (hp : s.params.wf = true) (h : runCommand w s = .next t) :
    t.OutInv := by
  rcases runCommand_inv h with ⟨i, -, hi⟩ | rfl
  · exact exec_outInv hp hi
  · exact raise_outInv (by decide) s

theorem platformReset_outInv (s : State) : (platformReset s).OutInv := OutInv.of_zero (by simp) rfl rfl

theorem step_outInv {s t : State} (hp : s.params.wf = true) (hs : s.OutInv) (h : step s = .next t) : t.OutInv := by
  rcases step_cases h with ⟨-, rfl⟩ | ⟨a, rest, -, hcase⟩
  · exact hs
  rcases hcase with ⟨w, -, hw⟩ | ⟨n, o, v, -, -, rfl⟩ | ⟨r, rfl⟩ | ⟨sp, o, v, -, -, rfl⟩ | ⟨-, rfl⟩
  · exact runCommand_outInv (s := { s with pending := rest }) hp hw
  · exact OutInv.of_outputs hs (by simp) (by simp) (by simp) (by simp)
  · exact OutInv.of_outputs hs rfl rfl rfl rfl
  · exact OutInv.of_outputs hs (by simp) (by simp) (by simp) (by simp)
  · exact platformReset_outInv _

/-- Settles O57: a command establishes the invariant, a reset too, and every other access leaves the three registers
alone. -/
theorem outputInvariantKept : Obligations.OutputInvariantKept :=
  fun _ _ hp hs h => step_outInv hp hs h

/-! ### Both invariants along a run -/

theorem initial_memInv {p : Params} (hp : p.wf = true) : (State.initial p).MemInv where
  sizes := hp
  canonical sp := by cases sp <;> exact List.Pairwise.nil
  inRange sp c hc := by cases sp <;> cases hc

theorem initial_outInv (p : Params) : (State.initial p).OutInv := OutInv.of_zero (by simp [State.initial]) rfl rfl

/-- Settles O58: at reset no byte is listed and every register is 0. -/
theorem invariantsAtReset : Obligations.InvariantsAtReset :=
  ⟨fun p hp => ⟨initial_memInv hp, initial_outInv p⟩,
    initial_memInv (by decide), initial_outInv Config.resetParams⟩

/-- Settles O59, by induction on the run. -/
theorem reachableStatesAreGood : Obligations.ReachableStatesAreGood := by
  intro p hp s hr
  induction hr with
  | start host => exact ⟨withPending_memInv (initial_memInv hp) host,
      OutInv.of_outputs (initial_outInv p) rfl rfl rfl rfl, rfl⟩
  | next _ hstep ih =>
    obtain ⟨hmem, hout, hsizes⟩ := ih
    exact ⟨step_memInv hmem hstep, step_outInv hmem.sizes hout hstep, (step_params hstep).trans hsizes⟩

/-! ### The registers no command reads

`setRegs` replaces the output registers and MLEN; every operation of a command commutes with it or forgets it. -/

/-- The state with STATUS, MLEN, OLEN and CORRECTED replaced. -/
def State.setRegs (s : State) (st : Status) (m o c : Word) : State :=
  { s with status := st, mlen := m, olen := o, corrected := c }

section SetRegs
variable (s : State) (st : Status) (m o c : Word)

@[simp] theorem fitsDecode_setRegs : fitsDecode (s.setRegs st m o c) = fitsDecode s := rfl
@[simp] theorem fitsCipher_setRegs : fitsCipher (s.setRegs st s.mlen o c) = fitsCipher s := rfl
@[simp] theorem fitsEncode_setRegs : fitsEncode (s.setRegs st s.mlen o c) = fitsEncode s := rfl
@[simp] theorem mlen_setRegs : (s.setRegs st m o c).mlen = m := rfl

@[simp] theorem memRead_setRegs (sp : Space) (a : Nat) : memRead (s.setRegs st m o c) sp a = memRead s sp a := by
  cases sp <;> rfl

theorem memWrite_setRegs (sp : Space) (a : Nat) (v : Byte) :
    memWrite (s.setRegs st m o c) sp a v = (memWrite s sp a v).setRegs st m o c := by
  cases sp <;> rfl

@[simp] theorem lsb_setRegs (p ch : Nat) : lsb (s.setRegs st m o c) p ch = lsb s p ch := by simp [lsb]

@[simp] theorem headerLen_setRegs : headerLen (s.setRegs st m o c) = headerLen s :=
  headerLen_congr fun _ _ => pixelBit_congr fun _ _ => lsb_setRegs ..

@[simp] theorem bodyByte_setRegs (i : Nat) : bodyByte (s.setRegs st m o c) i = bodyByte s i :=
  bodyByte_congr fun _ _ => pixelBit_congr fun _ _ => lsb_setRegs ..

@[simp] theorem corrections_setRegs (n : Nat) : corrections (s.setRegs st m o c) n = corrections s n :=
  corrections_congr fun _ _ => pixelSplit_congr fun _ _ => lsb_setRegs ..

@[simp] theorem keyTerm_setRegs (i : Nat) : keyTerm (s.setRegs st m o c) i = keyTerm s i :=
  keyTerm_congr rfl (fun _ _ => memRead_setRegs ..) i

@[simp] theorem cipherByte_setRegs : cipherByte (s.setRegs st m o c) = cipherByte s := by
  funext i
  simp [cipherByte]

@[simp] theorem writeBytes_setRegs (sp : Space) (a : Nat) (bs : List Byte) :
    writeBytes sp a bs (s.setRegs st m o c) = (writeBytes sp a bs s).setRegs st m o c := by
  induction bs generalizing a s with
  | nil => rfl
  | cons b bs ih => rw [writeBytes, memWrite_setRegs, ih, writeBytes]

@[simp] theorem alphaForce_setRegs : alphaForce (s.setRegs st m o c) = (alphaForce s).setRegs st m o c :=
  List.foldl_hom (fun t : State => t.setRegs st m o c) fun t _ => memWrite_setRegs t ..

@[simp] theorem embedBits_setRegs (n : Nat) (t : List Bool) :
    embedBits n t (s.setRegs st m o c) = (embedBits n t s).setRegs st m o c := by
  induction t generalizing n s with
  | nil => rfl
  | cons b t ih => rw [embedBits, memWrite_setRegs, ih, memRead_setRegs, embedBits]

theorem raise_setRegs (f : Failure) : raise f (s.setRegs st m o c) = { raise f s with mlen := m } := rfl

theorem succeed_setRegs (n k : Nat) : succeed n k (s.setRegs st m o c) = { succeed n k s with mlen := m } := rfl

theorem withMlen_same {s : State} {m : Word} (h : s.mlen = m) : { s with mlen := m } = s := by rw [← h]

theorem cipherPost_setRegs : cipherPost (s.setRegs st s.mlen o c) = cipherPost s := by
  rw [cipherPost, mlen_setRegs, cipherByte_setRegs, writeBytes_setRegs, succeed_setRegs]
  exact withMlen_same (cipherPost_mlen s)

theorem encodePost_setRegs : encodePost (s.setRegs st s.mlen o c) = encodePost s := by
  rw [encodePost, mlen_setRegs, cipherByte_setRegs, alphaForce_setRegs, embedBits_setRegs, succeed_setRegs]
  exact withMlen_same (encodePost_mlen s)

theorem decodePost_setRegs (L : Nat) : decodePost (s.setRegs st m o c) L = { decodePost s L with mlen := m } := by
  simp [decodePost, succeed_setRegs]

theorem exec_cipher_setRegs : exec .cipher (s.setRegs st s.mlen o c) = exec .cipher s := by
  have hfit := fitsCipher_setRegs s st o c
  cases hf : fitsCipher s
  · rw [exec_cipher_badConfig hf, exec_cipher_badConfig (hfit.trans hf), raise_setRegs,
      withMlen_same (raise_mlen ..)]
  · rw [exec_cipher_ok hf, exec_cipher_ok (hfit.trans hf), cipherPost_setRegs]

theorem exec_encode_setRegs : exec .encode (s.setRegs st s.mlen o c) = exec .encode s := by
  have hfit := fitsEncode_setRegs s st o c
  cases hf : fitsEncode s
  · rw [exec_encode_badConfig hf, exec_encode_badConfig (hfit.trans hf), raise_setRegs,
      withMlen_same (raise_mlen ..)]
  · by_cases hn : 32 + 8 * s.mlen.toNat ≤ npix s
    · rw [exec_encode_ok hf hn, exec_encode_ok (hfit.trans hf) hn, encodePost_setRegs]
    · have hn : npix s < 32 + 8 * s.mlen.toNat := by omega
      rw [exec_encode_insufficient hf hn, exec_encode_insufficient (hfit.trans hf) hn, raise_setRegs,
        withMlen_same (raise_mlen ..)]

/-- DECODE reads neither MLEN nor an output register (R14, R20): it does the same, and keeps the MLEN it finds. -/
theorem exec_decode_setRegs {t : State} (h : exec .decode s = .next t) :
    exec .decode (s.setRegs st m o c) = .next { t with mlen := m } := by
  have hfit := fitsDecode_setRegs s st m o c
  have hL := headerLen_setRegs s st m o c
  cases hf : fitsDecode s
  · rw [exec_decode_badConfig (hfit.trans hf), exec_unique h (exec_decode_badConfig hf), raise_setRegs]
  by_cases hn : 32 ≤ npix s
  swap
  · have hn : npix s < 32 := by omega
    rw [exec_decode_truncated (hfit.trans hf) hn, exec_unique h (exec_decode_truncated hf hn), raise_setRegs]
  by_cases hg : 0 < headerLen s ∧ headerLen s % 8 = 0 ∧ 32 + headerLen s ≤ npix s
  · obtain ⟨hpos, h8, hfits⟩ := hg
    rw [exec_decode_ok (hfit.trans hf) hL hpos h8 hfits, exec_unique h (exec_decode_ok hf rfl hpos h8 hfits),
      decodePost_setRegs]
  · rw [exec_decode_corrupt (hfit.trans hf) hn hL hg, exec_unique h (exec_decode_corrupt hf hn rfl hg),
      raise_setRegs]

theorem exec_setRegs (i : Instr) : exec i (s.setRegs st s.mlen o c) = exec i s := by
  cases i with
  | cipher => exact exec_cipher_setRegs s st o c
  | encode => exact exec_encode_setRegs s st o c
  | decode =>
    obtain ⟨t, ht⟩ := exec_next .decode s
    obtain ⟨-, -, hm, -⟩ := exec_sameInputs ht
    rw [ht, exec_decode_setRegs s st s.mlen o c ht, withMlen_same hm]

theorem runCommand_setRegs (w : Word) : runCommand w (s.setRegs st s.mlen o c) = runCommand w s := by
  unfold runCommand
  split
  · exact exec_setRegs ..
  · rfl

end SetRegs

/-- Settles O42: replacing the three output registers is `setRegs` with the state's own MLEN. -/
theorem outputsAreNotRead : Obligations.OutputsAreNotRead :=
  fun w s st o c => runCommand_setRegs s st o c w

/-! ### The registers, one by one -/

/-- Settles O13: the write by evaluation, the rest by what every command keeps. -/
theorem widthAndHeight : Obligations.WidthAndHeight := by
  refine ⟨fun s v => ?_, fun w s t h => ?_, fun p => ⟨rfl, rfl⟩⟩
  · rw [← BitVec.setWidth_eq_extractLsb' (by decide)]
    exact ⟨rfl, rfl⟩
  · obtain ⟨hw, hh, -⟩ := runCommand_sameInputs h
    exact ⟨congrArg (BitVec.setWidth 32) hw, congrArg (BitVec.setWidth 32) hh⟩

theorem exec_cipher_of_long_message {s : State} (h : s.params.msgBytes < s.mlen.toNat) :
    exec .cipher s = .next (raise .badConfig s) := by
  refine exec_cipher_badConfig (Bool.eq_false_iff.mpr fun hfit => ?_)
  obtain ⟨hmsg, -⟩ := (fitsCipher_iff s).mp hfit
  omega

theorem exec_encode_of_long_message {s : State} (h : s.params.msgBytes < s.mlen.toNat) :
    exec .encode s = .next (raise .badConfig s) := by
  refine exec_encode_badConfig (Bool.eq_false_iff.mpr fun hfit => ?_)
  obtain ⟨hmsg, -⟩ := (fitsEncode_iff s).mp hfit
  omega

theorem exec_of_long_key {s : State} (h : s.params.keyBytes < s.klen.toNat) (i : Instr) :
    exec i s = .next (raise .badConfig s) := by
  cases i with
  | cipher =>
    refine exec_cipher_badConfig (Bool.eq_false_iff.mpr fun hfit => ?_)
    obtain ⟨-, -, hkey⟩ := (fitsCipher_iff s).mp hfit
    omega
  | encode =>
    refine exec_encode_badConfig (Bool.eq_false_iff.mpr fun hfit => ?_)
    obtain ⟨-, hkey, -⟩ := (fitsEncode_iff s).mp hfit
    omega
  | decode =>
    refine exec_decode_badConfig (Bool.eq_false_iff.mpr fun hfit => ?_)
    obtain ⟨hkey, -⟩ := (fitsDecode_iff s).mp hfit
    omega

theorem keyBytes_of_klen_zero {s : State} (h : s.klen = 0) : keyBytes s = [] := by simp [keyBytes, readBytes, h]

/-- Settles O14: too long a message or key fails the admissibility check, and DECODE commutes with `setRegs`. -/
theorem lengthRegisters : Obligations.LengthRegisters := by
  refine ⟨fun _ _ => ⟨rfl, rfl⟩, fun w s t h => ?_, fun _ => ⟨rfl, rfl⟩,
    fun s h => ⟨exec_cipher_of_long_message h, exec_encode_of_long_message h⟩,
    fun s i h => exec_of_long_key h i, fun s m => ?_, fun s m h => ?_⟩
  · obtain ⟨-, -, hm, hk, -⟩ := runCommand_sameInputs h
    exact ⟨hm, hk⟩
  · obtain ⟨t, ht⟩ := exec_next .decode s
    exact ⟨t, ht, exec_decode_setRegs s s.status m s.olen s.corrected ht⟩
  · rw [keyBytes_of_klen_zero h]
    rfl

/-- Settles O43: a failed command is a `raise`, a successful one leaves its command's post-state. -/
theorem outputRegisters : Obligations.OutputRegisters := by
  refine ⟨fun _ _ => ⟨rfl, rfl⟩, fun _ => ⟨rfl, rfl⟩, fun w s t h => ⟨fun hst => ?_, ?_, ?_, ?_⟩⟩
  · obtain ⟨f, rfl⟩ := runCommand_of_not_ok h hst
    exact ⟨rfl, rfl⟩
  · rintro hst rfl
    obtain rfl := exec_cipher_of_ok h hst
    exact ⟨cipherPost_olen s, cipherPost_corrected s⟩
  · rintro hst rfl
    obtain rfl := exec_encode_of_ok h hst
    exact ⟨encodePost_olen s, encodePost_corrected s⟩
  · rintro hst rfl
    obtain ⟨L, hL, hn, rfl⟩ := exec_decode_of_ok h hst
    rw [hL]
    have hc := decodePost_corrected_toNat hn
    exact ⟨decodePost_olen_toNat hn, hc, hc ▸ corrections_le s (32 + L), hn⟩

/-- Settles O28: two 16-bit factors, so the product has R18's bound (`npix_le`). -/
theorem capacityIsExact : Obligations.CapacityIsExact := by
  intro s
  have hnpix : npix s = (regRead s .width).toNat * (regRead s .height).toNat := by simp [npix]
  have hcap := cap_eq s
  have hle := npix_le s
  refine ⟨hnpix, hle, by rw [hcap, hnpix], by omega, by omega, ?_⟩
  rintro (h | h) <;> rw [hcap, hnpix, h] <;> simp

/-! ### The step and the host -/

/-- Settles O1, register by register and space by space. -/
theorem resetState : Obligations.ResetState := by
  refine ⟨rfl, fun p => ⟨fun r => ?_, fun sp a => ?_, rfl, step_idle rfl⟩⟩
  · cases r <;> rfl
  · cases sp <;> rfl

theorem decode_of_tableWord {w : Nat} {i : Instr} (h : decodeTableWord 32 w = some i) :
    Sys2Proof.decode (BitVec.ofNat 32 (w % 2 ^ 32)) = .ok i := by
  rw [decodeTableWord] at h
  cases hd : Sys2Proof.decode (BitVec.ofNat 32 (w % 2 ^ 32)) with
  | ok j => rw [hd] at h; injection h with h; rw [h]
  | error e => rw [hd] at h; cases h

/-- Settles O8: serving the write to CMD is `runCommand`, which decodes and runs. -/
theorem stepRunsCommand : Obligations.StepRunsCommand := by
  refine fun s i => ⟨fun rest w hp hw => ?_, fun w hw => ?_⟩
  · rw [step_serve hp, serve_cmd, runCommand_of_decode hw]
  · rw [step_serve (s := s.withFetchWord 32 w) rfl, serve_cmd, runCommand_of_decode (decode_of_tableWord hw)]
    rfl

/-- Settles O10, by the register file's reading at every size and offset. -/
theorem registerRead : Obligations.RegisterRead := by
  intro s rest size offset hp
  rw [step_serve hp, serve_readReg, hostRegRead_eq]
  rfl

/-- Settles O11, by what a host write stores at every size and offset. -/
theorem registerWrite : Obligations.RegisterWrite := by
  intro s rest size offset v hp hcmd
  rw [step_serve hp, serve_writeReg hcmd, hostRegWrite_eq]

/-- Settles O12: such an access reaches no register. -/
theorem outsideRegisterFile : Obligations.OutsideRegisterFile := by
  intro s rest size offset v h
  have hnone := regAt_outside h
  have hcmd : ¬(size = 4 ∧ offset = 0x00) := by omega
  refine ⟨fun hp => ?_, fun hp => ?_⟩
  · rw [step_serve hp, serve_readReg, hostRegRead_of_none hnone]
    rfl
  · rw [step_serve hp, serve_writeReg hcmd, hostRegWrite_of_none hnone]

/-- The one way an access stops the machine: a byte access outside its space (U14). -/
theorem serve_stops_iff (a : Access) (s : State) : safeOutcome (serve a s) = false ↔
    ∃ sp o, s.params.size sp ≤ o ∧ ((∃ v, a = .storeByte sp o v) ∨ a = .loadByte sp o) := by
  cases a with
  | writeReg size offset v =>
    by_cases hcmd : size = 4 ∧ offset = 0x00
    · obtain ⟨rfl, rfl⟩ := hcmd
      obtain ⟨t, ht⟩ := runCommand_next v s
      simp [serve_cmd, ht, safeOutcome]
    · simp [serve_writeReg hcmd, safeOutcome]
  | readReg size offset => simp [serve, safeOutcome]
  | storeByte sp o v =>
    by_cases h : o < s.params.size sp
    · simp [serve, safeOutcome, h]
    · simp [serve, safeOutcome, h, Nat.le_of_not_lt h]
  | loadByte sp o =>
    by_cases h : o < s.params.size sp
    · simp [serve, safeOutcome, h]
    · simp [serve, safeOutcome, h, Nat.le_of_not_lt h]
  | reset => simp [serve, safeOutcome]

/-- Settles O60: the core never stops, so only the accesses of `serve_stops_iff` do. -/
theorem onlyOutsideAccessStops : Obligations.OnlyOutsideAccessStops := by
  intro s
  cases hp : s.pending with
  | nil => simp [step_idle hp, safeOutcome]
  | cons a rest =>
    rw [step_serve hp, serve_stops_iff]
    constructor
    · rintro ⟨sp, o, ho, ⟨v, rfl⟩ | rfl⟩
      · exact ⟨sp, o, rest, ho, .inl ⟨v, rfl⟩⟩
      · exact ⟨sp, o, rest, ho, .inr rfl⟩
    · rintro ⟨sp, o, _, ho, ⟨v, h⟩ | h⟩ <;> injection h with h
      · exact ⟨sp, o, ho, .inl ⟨v, h⟩⟩
      · exact ⟨sp, o, ho, .inr h⟩

end Sys2Proof.Machine

/-! # The memories, and what a command reads and writes of them (20_memory.md)

A byte access of the host is one equation of `step`, inside its space and outside. What a command may write is said
once, by inversion over `exec_cases` (`exec_keeps`). What it may read is said by comparing two states: where they agree
on its operands they take the same branch (`exec_decode_sameBranch`) and leave the same outputs (`exec_sameOutputs`). -/

namespace Sys2Proof.Machine

/-! ### The host's byte accesses (R26, R32, R35) -/

section ByteAccess
variable {s : State} {rest : List Access} {sp : Space} {a : Nat} {v : Byte}

theorem step_storeByte (hp : s.pending = .storeByte sp a v :: rest) (ha : a < s.params.size sp) :
    step s = .next (memWrite { s with pending := rest } sp a v) := by
  rw [step_serve hp]
  exact if_pos ha

theorem step_loadByte (hp : s.pending = .loadByte sp a :: rest) (ha : a < s.params.size sp) :
    step s = .next (reply (.byte (memRead s sp a)) { s with pending := rest }) := by
  rw [step_serve hp, ← memRead_withPending s rest]
  exact if_pos ha

theorem step_storeByte_outside (hp : s.pending = .storeByte sp a v :: rest) (ha : s.params.size sp ≤ a) :
    step s = .fault (.noSuchOffset sp a) := by
  rw [step_serve hp]
  exact if_neg (Nat.not_lt.mpr ha)

theorem step_loadByte_outside (hp : s.pending = .loadByte sp a :: rest) (ha : s.params.size sp ≤ a) :
    step s = .fault (.noSuchOffset sp a) := by
  rw [step_serve hp]
  exact if_neg (Nat.not_lt.mpr ha)

end ByteAccess

theorem memWrite_sameInputs (s : State) (sp : Space) (a : Nat) (v : Byte) : SameInputs s (memWrite s sp a v) := by
  simp [SameInputs]

/-- Settles O15: the store is one `memWrite`. -/
theorem hostStore : Obligations.HostStore := by
  intro s rest sp a v hp ha
  refine ⟨_, step_storeByte hp ha, fun sp' b => ?_, memWrite_status .., memWrite_olen .., memWrite_corrected ..,
    memWrite_sameInputs ..⟩
  rw [memRead_memWrite, memRead_withPending]

/-- Settles O16: the load is one `reply`. -/
theorem hostLoad : Obligations.HostLoad :=
  fun _ _ _ _ hp ha => step_loadByte hp ha

/-- Settles O17: the offset is compared with the size before either access. -/
theorem hostOutsideSpace : Obligations.HostOutsideSpace :=
  fun _ _ _ _ _ ha => ⟨fun hp => step_storeByte_outside hp ha, fun hp => step_loadByte_outside hp ha⟩

/-! ### Admissibility (R39) -/

theorem npix_eq_regRead (s : State) : npix s = (regRead s .width).toNat * (regRead s .height).toNat := by
  simp [npix]

/-- Settles O39: the three `fits` lemmas, with NPIX as the product of the two registers. -/
theorem admissibility : Obligations.Admissibility := by
  intro s
  rw [← npix_eq_regRead]
  exact ⟨fitsCipher_iff s, fitsEncode_iff s, fitsDecode_iff s,
    exec_cipher_badConfig, exec_encode_badConfig, exec_decode_badConfig⟩

/-! ### What a command may write (R33, R84) -/

/-- ENCODE writes below `4*NPIX` only, since its coded bits fit the capacity (R66, R72). -/
theorem memRead_encodePost_beyond {s : State} (hn : 32 + 8 * s.mlen.toNat ≤ npix s) {a : Nat}
    (ha : 4 * npix s ≤ a) : memRead (encodePost s) .pix a = memRead s .pix a := by
  rw [encodePost, memRead_succeed, memRead_embedBits_other, memRead_alphaForce, if_neg (by omega)]
  rintro - i hi
  have hbits : i < 3 * (32 + 8 * s.mlen.toNat) := by simpa using hi
  rw [slot_eq]
  omega

/-- A command changes no byte but those of `OUT` below the new OLEN, CIPHER and DECODE only, and those of the pixel
buffer, ENCODE only. -/
theorem exec_keeps {i : Instr} {s t : State} (h : exec i s = .next t) {sp : Space} {a : Nat}
    (hout : sp = .out → i = .encode ∨ t.olen.toNat ≤ a) (hpix : sp = .pix → i = .encode → 4 * npix s ≤ a) :
    memRead t sp a = memRead s sp a := by
  rcases exec_cases h with ⟨rfl, -, rfl⟩ | ⟨rfl, -, hn, rfl⟩ | ⟨L, rfl, -, -, -, -, hn, rfl⟩ | ⟨f, rfl, -⟩
  · rw [memRead_cipherPost, if_neg]
    rintro ⟨hsp, ha⟩
    have hle := (hout hsp).resolve_left nofun
    rw [cipherPost_olen] at hle
    omega
  · by_cases hsp : sp = .pix
    · subst hsp
      exact memRead_encodePost_beyond hn (hpix rfl rfl)
    · exact memRead_encodePost_other s hsp a
  · rw [memRead_decodePost, if_neg]
    rintro ⟨hsp, ha⟩
    have hle := (hout hsp).resolve_left nofun
    rw [decodePost_olen_toNat hn] at hle
    omega
  · exact memRead_raise ..

/-- Settles O44: each clause is `exec_keeps` at its space, beside the registers of `exec_sameInputs`. -/
theorem commandFrame : Obligations.CommandFrame := by
  intro i s t h
  refine ⟨exec_sameInputs h, fun a => ?_, fun a => ?_, fun hi a => ?_, fun hi => ⟨fun a => ?_, fun a ha => ?_⟩,
    fun a ha => ?_⟩
  · exact exec_keeps h nofun nofun
  · exact exec_keeps h nofun nofun
  · exact exec_keeps h nofun fun _ he => absurd he hi
  · exact exec_keeps h (fun _ => .inl hi) nofun
  · exact exec_keeps h nofun fun _ _ => ha
  · exact exec_keeps h (fun _ => .inr ha) nofun

/-! ### What DECODE reads (R33, R73) -/

/-- The least significant bits of the colour bytes of every pixel below `n` are the same. -/
def SameLsbs (s u : State) (n : Nat) : Prop := ∀ p ch, p < n → ch < 3 → lsb u p ch = lsb s p ch

section SameLsbs
variable {s u : State} {n : Nat} (h : SameLsbs s u n)
include h

theorem SameLsbs.mono {m : Nat} (hm : m ≤ n) : SameLsbs s u m :=
  fun p ch hp hch => h p ch (by omega) hch

theorem SameLsbs.pixelBit_eq {p : Nat} (hp : p < n) : pixelBit u p = pixelBit s p :=
  pixelBit_congr fun ch hch => h p ch hp hch

theorem SameLsbs.headerLen_eq (hn : 32 ≤ n) : headerLen u = headerLen s :=
  headerLen_congr fun _ hp => h.pixelBit_eq (by omega)

theorem SameLsbs.bodyByte_eq {i : Nat} (hi : 32 + 8 * i + 8 ≤ n) : bodyByte u i = bodyByte s i :=
  bodyByte_congr fun _ hj => h.pixelBit_eq (by omega)

theorem SameLsbs.corrections_eq {m : Nat} (hm : m ≤ n) : corrections u m = corrections s m :=
  corrections_congr fun p hp => pixelSplit_congr fun ch hch => h p ch (by omega) hch

end SameLsbs

theorem SameKey.keyTerm_eq {s u : State} (h : SameKey s u) (i : Nat) : keyTerm u i = keyTerm s i :=
  keyTerm_congr h.1 h.2 i

theorem fitsDecode_congr {s u : State} (hp : u.params = s.params) (hn : npix u = npix s) (hk : u.klen = s.klen) :
    fitsDecode u = fitsDecode s := by
  rw [fitsDecode, fitsDecode, hp, hn, hk]

/-- Two states that agree on what DECODE reads take the same branch: the same failure, or success with the same
header. -/
theorem exec_decode_sameBranch {s u : State} (hp : u.params = s.params) (hn : npix u = npix s)
    (hk : u.klen = s.klen) (hl : SameLsbs s u (npix s)) :
    (∃ f, exec .decode s = .next (raise f s) ∧ exec .decode u = .next (raise f u)) ∨
    ∃ L, 32 + L ≤ npix s ∧ exec .decode s = .next (decodePost s L) ∧ exec .decode u = .next (decodePost u L) := by
  have hfit := fitsDecode_congr hp hn hk
  cases hf : fitsDecode s
  · exact .inl ⟨_, exec_decode_badConfig hf, exec_decode_badConfig (hfit.trans hf)⟩
  by_cases h32 : 32 ≤ npix s
  swap
  · exact .inl ⟨_, exec_decode_truncated hf (by omega), exec_decode_truncated (hfit.trans hf) (by omega)⟩
  have hL := hl.headerLen_eq h32
  by_cases hg : 0 < headerLen s ∧ headerLen s % 8 = 0 ∧ 32 + headerLen s ≤ npix s
  · obtain ⟨hpos, h8, hfits⟩ := hg
    exact .inr ⟨_, hfits, exec_decode_ok hf rfl hpos h8 hfits,
      exec_decode_ok (hfit.trans hf) hL hpos h8 (hn ▸ hfits)⟩
  · exact .inl ⟨_, exec_decode_corrupt hf h32 rfl hg,
      exec_decode_corrupt (hfit.trans hf) (hn ▸ h32) hL (hn ▸ hg)⟩

/-- The message a successful DECODE leaves in `OUT` comes from the key and the least significant bits. -/
theorem memRead_decodePost_out_congr {s u : State} {L a : Nat} (hk : SameKey s u) (hl : SameLsbs s u (32 + L))
    (ha : a < L / 8) : memRead (decodePost u L) .out a = memRead (decodePost s L) .out a := by
  rw [memRead_decodePost, memRead_decodePost, if_pos ⟨rfl, ha⟩, if_pos ⟨rfl, ha⟩, hl.bodyByte_eq (by omega),
    hk.keyTerm_eq]

theorem decodePost_corrected_congr {s u : State} {L : Nat} (hl : SameLsbs s u (32 + L)) :
    (decodePost u L).corrected = (decodePost s L).corrected := by
  rw [decodePost_corrected, decodePost_corrected, hl.corrections_eq le_rfl]

/-- Settles O47: the same branch, and on success the same count and message. -/
theorem decodeReadsOnly : Obligations.DecodeReadsOnly := by
  intro s u hp hn hk hl
  rcases exec_decode_sameBranch hp hn hk.1 hl with ⟨f, hs, hu⟩ | ⟨L, hL, hs, hu⟩
  · refine ⟨_, _, hs, hu, rfl, rfl, rfl, fun a ha => ?_⟩
    exact absurd ha (Nat.not_lt_zero a)
  · have hl := SameLsbs.mono hl hL
    refine ⟨_, _, hs, hu, rfl, rfl, decodePost_corrected_congr hl, fun a ha => ?_⟩
    exact memRead_decodePost_out_congr hk hl (decodePost_olen_toNat hL ▸ ha)

/-! ### What a command reads of the dimensions (R27, R72 corner case d) -/

/-- Every byte of every space reads the same. -/
def SameMemory (s u : State) : Prop := ∀ sp, SameBytes s u sp

/-- The implicit operands of the commands (R43) are the same, the dimensions through their product only. -/
structure SameOperands (s u : State) : Prop where
  params : u.params = s.params
  npix : npix u = npix s
  mlen : u.mlen = s.mlen
  klen : u.klen = s.klen
  memory : SameMemory s u

/-- A command left the same outputs: STATUS, OLEN, CORRECTED and every byte of every space. -/
structure SameOutputs (t v : State) : Prop where
  status : v.status = t.status
  olen : v.olen = t.olen
  corrected : v.corrected = t.corrected
  memory : SameMemory t v

section SameMemory
variable {s u : State} (h : SameMemory s u)
include h

theorem memWrite_sameMemory (sp : Space) (a : Nat) (v : Byte) :
    SameMemory (memWrite s sp a v) (memWrite u sp a v) := by
  intro sp' b
  rw [memRead_memWrite, memRead_memWrite, h sp' b]

theorem alphaForce_sameMemory (hn : npix u = npix s) : SameMemory (alphaForce s) (alphaForce u) := by
  intro sp a
  rw [memRead_alphaForce, memRead_alphaForce, hn, h sp a]

theorem embedBits_sameMemory (n : Nat) (t : List Bool) : SameMemory (embedBits n t s) (embedBits n t u) := by
  induction t generalizing n s u with
  | nil => exact h
  | cons b t ih =>
    rw [embedBits, embedBits, h .pix (slot n)]
    exact ih (memWrite_sameMemory h .pix (slot n) _) (n + 1)

theorem SameMemory.sameLsbs (n : Nat) : SameLsbs s u n :=
  fun p ch _ _ => congrArg (·.getLsbD 0) (h .pix (4 * p + ch))

theorem raise_sameOutputs (f : Failure) : SameOutputs (raise f s) (raise f u) where
  status := rfl
  olen := rfl
  corrected := rfl
  memory sp a := by rw [memRead_raise, memRead_raise, h sp a]

end SameMemory

section SameOperands
variable {s u : State} (h : SameOperands s u)
include h

theorem SameOperands.sameKey : SameKey s u := ⟨h.klen, fun i _ => h.memory .key i⟩

theorem SameOperands.cipherByte_eq : cipherByte u = cipherByte s := by
  funext i
  rw [cipherByte, cipherByte, h.memory .msg i, h.sameKey.keyTerm_eq]

theorem SameOperands.fitsCipher_eq : fitsCipher u = fitsCipher s := by
  rw [fitsCipher, fitsCipher, h.params, h.mlen, h.klen]

theorem SameOperands.fitsEncode_eq : fitsEncode u = fitsEncode s := by
  rw [fitsEncode, fitsEncode, h.params, h.npix, h.mlen, h.klen]

theorem cipherPost_sameOutputs : SameOutputs (cipherPost s) (cipherPost u) where
  status := rfl
  olen := by rw [cipherPost_olen, cipherPost_olen, h.mlen]
  corrected := rfl
  memory sp a := by rw [memRead_cipherPost, memRead_cipherPost, h.mlen, h.cipherByte_eq, h.memory sp a]

theorem encodePost_sameOutputs : SameOutputs (encodePost s) (encodePost u) where
  status := rfl
  olen := rfl
  corrected := rfl
  memory sp a := by
    rw [encodePost, encodePost, memRead_succeed, memRead_succeed, h.mlen, h.cipherByte_eq]
    exact embedBits_sameMemory (alphaForce_sameMemory h.memory h.npix) _ _ sp a

theorem decodePost_sameOutputs (L : Nat) : SameOutputs (decodePost s L) (decodePost u L) where
  status := rfl
  olen := rfl
  corrected := decodePost_corrected_congr (h.memory.sameLsbs _)
  memory sp a := by
    by_cases hout : sp = .out ∧ a < L / 8
    · obtain ⟨rfl, ha⟩ := hout
      exact memRead_decodePost_out_congr h.sameKey (h.memory.sameLsbs _) ha
    · rw [memRead_decodePost, memRead_decodePost, if_neg hout, if_neg hout, h.memory sp a]

/-- Each command takes the same branch on the same operands, and so leaves the same outputs. -/
theorem exec_sameOutputs (i : Instr) :
    ∃ t v, exec i s = .next t ∧ exec i u = .next v ∧ SameOutputs t v := by
  cases i with
  | cipher =>
    have hfit := h.fitsCipher_eq
    cases hf : fitsCipher s
    · exact ⟨_, _, exec_cipher_badConfig hf, exec_cipher_badConfig (hfit.trans hf), raise_sameOutputs h.memory _⟩
    · exact ⟨_, _, exec_cipher_ok hf, exec_cipher_ok (hfit.trans hf), cipherPost_sameOutputs h⟩
  | encode =>
    have hfit := h.fitsEncode_eq
    have hn := h.npix
    have hm := congrArg BitVec.toNat h.mlen
    cases hf : fitsEncode s
    · exact ⟨_, _, exec_encode_badConfig hf, exec_encode_badConfig (hfit.trans hf), raise_sameOutputs h.memory _⟩
    by_cases hlen : 32 + 8 * s.mlen.toNat ≤ npix s
    · exact ⟨_, _, exec_encode_ok hf hlen, exec_encode_ok (hfit.trans hf) (by omega), encodePost_sameOutputs h⟩
    · exact ⟨_, _, exec_encode_insufficient hf (by omega), exec_encode_insufficient (hfit.trans hf) (by omega),
        raise_sameOutputs h.memory _⟩
  | decode =>
    rcases exec_decode_sameBranch h.params h.npix h.klen (h.memory.sameLsbs _) with ⟨f, hs, hu⟩ | ⟨L, -, hs, hu⟩
    · exact ⟨_, _, hs, hu, raise_sameOutputs h.memory f⟩
    · exact ⟨_, _, hs, hu, decodePost_sameOutputs h L⟩

end SameOperands

theorem sameOperands_withDimensions {s : State} {w h : BitVec 16} (hwh : w.toNat * h.toNat = npix s) :
    SameOperands s { s with width := w, height := h } where
  params := rfl
  npix := hwh
  mlen := rfl
  klen := rfl
  memory sp _ := by cases sp <;> rfl

/-- Settles O45: with other dimensions of the same product every operand is the same. -/
theorem onlyPixelCountMatters : Obligations.OnlyPixelCountMatters := by
  intro s w h i hwh
  obtain ⟨t, u, ht, hu, hsame⟩ := exec_sameOutputs (sameOperands_withDimensions hwh) i
  obtain ⟨hw, hh, -⟩ := exec_sameInputs hu
  exact ⟨t, u, ht, hu, hsame.status, hsame.olen, hsame.corrected, hsame.memory, hw, hh⟩

end Sys2Proof.Machine

/-! # Command words and status codes (30_encoding.md)

The two fields make up the whole command word, so the decoder inverts the encoder (`decode_eq_ok_iff`), and every word
that is no command's is rejected by the field at fault. -/

namespace Sys2Proof

/-! ### The fields of a command word (R40) -/

@[simp] theorem CommandWord.toWord_ofWord (w : Word) : (CommandWord.ofWord w).toWord = w := by
  calc w.extractLsb' 8 24 ++ w.extractLsb' 0 8
    _ = w.extractLsb' 0 32 := BitVec.extractLsb'_append_extractLsb'_eq_extractLsb' rfl
    _ = w := BitVec.extractLsb'_eq_self

@[simp] theorem CommandWord.ofWord_toWord (c : CommandWord) : CommandWord.ofWord c.toWord = c :=
  congrArg₂ CommandWord.mk BitVec.extractLsb'_append_eq_left BitVec.extractLsb'_append_eq_right

/-! ### The decoder on the two fields (R41, R42) -/

theorem decodeFields_zero_ne {c : CommandWord} (hz : c.zero ≠ 0#24) : decodeFields c = .error .zeroFieldNotZero :=
  if_pos hz

theorem decodeFields_op_unassigned {c : CommandWord} (hz : c.zero = 0#24)
    (hop : c.op ≠ 0x01#8 ∧ c.op ≠ 0x02#8 ∧ c.op ≠ 0x03#8) : decodeFields c = .error .unassignedOpcode := by
  obtain ⟨h1, h2, h3⟩ := hop
  rw [decodeFields, if_neg (not_not_intro hz), if_neg h1, if_neg h2, if_neg h3]

@[simp] theorem decodeFields_opcode (i : Instr) : decodeFields ⟨0#24, i.opcode⟩ = .ok i := by
  cases i <;> rfl

theorem op_unassigned_of_ne_opcode {op : BitVec 8} (h : ∀ i : Instr, op ≠ i.opcode) :
    op ≠ 0x01#8 ∧ op ≠ 0x02#8 ∧ op ≠ 0x03#8 :=
  ⟨h .cipher, h .encode, h .decode⟩

/-- A command's fields are the only ones that decode to it. -/
theorem decodeFields_eq_ok_iff {c : CommandWord} {i : Instr} : decodeFields c = .ok i ↔ c = ⟨0#24, i.opcode⟩ := by
  refine ⟨fun h => ?_, fun h => h ▸ decodeFields_opcode i⟩
  obtain ⟨zero, op⟩ := c
  obtain rfl : zero = 0#24 := by
    by_contra hz
    cases (decodeFields_zero_ne hz).symm.trans h
  obtain ⟨j, rfl⟩ : ∃ j : Instr, op = j.opcode := by
    by_contra hop
    cases (decodeFields_op_unassigned rfl (op_unassigned_of_ne_opcode (not_exists.mp hop))).symm.trans h
  cases (decodeFields_opcode j).symm.trans h
  rfl

/-! ### The decoder on words -/

theorem decode_zero_ne {w : Word} (hz : w.extractLsb' 8 24 ≠ 0#24) : decode w = .error .zeroFieldNotZero :=
  decodeFields_zero_ne hz

theorem decode_op_unassigned {w : Word} (hz : w.extractLsb' 8 24 = 0#24)
    (hop : w.extractLsb' 0 8 ≠ 0x01#8 ∧ w.extractLsb' 0 8 ≠ 0x02#8 ∧ w.extractLsb' 0 8 ≠ 0x03#8) :
    decode w = .error .unassignedOpcode :=
  decodeFields_op_unassigned hz hop

/-- A word decodes to a command exactly when it is that command's word. -/
theorem decode_eq_ok_iff {w : Word} {i : Instr} : decode w = .ok i ↔ w = encode i := by
  rw [decode, decodeFields_eq_ok_iff, encode]
  constructor
  · intro h
    rw [← h, CommandWord.toWord_ofWord]
  · intro h
    rw [h, CommandWord.ofWord_toWord]

@[simp] theorem decode_encode (i : Instr) : decode (encode i) = .ok i := decode_eq_ok_iff.mpr rfl

/-- spec/opcode_table.json numbers a command word by its value as a 32-bit number. -/
@[simp] theorem decodeTableWord_toNat (w : Word) : decodeTableWord 32 w.toNat = (decode w).toOption := by
  rw [decodeTableWord, Nat.mod_eq_of_lt w.isLt, BitVec.ofNat_toNat, BitVec.setWidth_eq]

/-- The mask of every row of R41's table keeps the whole word, so a row is selected by its match alone. -/
theorem decode_eq_ok_iff_and_mask {w : Word} {i : Instr} : decode w = .ok i ↔ w &&& 0xFFFFFFFF#32 = encode i := by
  have hmask : w &&& 0xFFFFFFFF#32 = w := BitVec.and_allOnes
  rw [hmask, decode_eq_ok_iff]

end Sys2Proof

namespace Sys2Proof.Machine

/-! ### The decoder against R41's table, and the status codes (R44) -/

/-- Settles O6: each rejection is one field's, and a row's match is its command's word. -/
theorem decoderIsTheTable : Obligations.DecoderIsTheTable :=
  fun _ => ⟨decode_zero_ne, fun hz h1 h2 h3 => decode_op_unassigned hz ⟨h1, h2, h3⟩,
    decode_eq_ok_iff_and_mask, decode_eq_ok_iff_and_mask, decode_eq_ok_iff_and_mask⟩

/-- Settles O4: three words are their commands' encodings, each other one is rejected by the field at fault. -/
theorem sampleWords : Obligations.SampleWords :=
  ⟨decode_encode .cipher, decode_encode .encode, decode_encode .decode,
    decode_op_unassigned rfl (by decide), decode_op_unassigned rfl (by decide), decode_op_unassigned rfl (by decide),
    decode_zero_ne (by decide), decode_zero_ne (by decide)⟩

/-- Settles O5: the decoder inverts the encoder, in both numberings of the word. -/
theorem encodeThenDecode : Obligations.EncodeThenDecode := by
  intro i _
  refine ⟨decode_encode i, ?_⟩
  rw [decodeTableWord_toNat, decode_encode]
  rfl

/-- Settles O18: the word is the four-bit CODE zero-extended, evaluated at each of R44's codes. -/
theorem statusCodes : Obligations.StatusCodes := ⟨rfl, rfl, rfl, rfl, rfl, rfl, rfl⟩

end Sys2Proof.Machine

/-! # XORSTREAM and CIPHER (40_cipher.md)

XORSTREAM is read byte by byte off `xorStream_getElem`; CIPHER is its two laws `exec_cipher_ok` and
`exec_cipher_badConfig`, with `memRead_cipherPost` for the memory it leaves. -/

namespace Sys2Proof.Machine

/-! ### XORSTREAM (R50 to R52) -/

/-- Every byte of XORSTREAM, read with a default as R50 indexes it. -/
theorem xorStream_getD (m k : List Byte) {i : Nat} (hi : i < m.length) :
    (xorStream m k).getD i 0 = m.getD i 0 ^^^ k.getD (i % k.length) 0 := by
  have hi' : i < (xorStream m k).length := by rwa [xorStream_length]
  rw [List.getD_eq_getElem _ _ hi', List.getD_eq_getElem _ _ hi, xorStream_getElem]

/-- Settles O20: each byte is `xorStream_getD`; the empty key is XORSTREAM's own first case (R51). -/
theorem xorStreamBytes : Obligations.XorStreamBytes :=
  ⟨fun m k _ => ⟨xorStream_length m k, fun _ => xorStream_getD m k⟩, fun _ => rfl⟩

/-- The two keys of a double XORSTREAM meet each message byte in turn (R52). -/
theorem xorStream_xorStream_getD (m k₁ k₂ : List Byte) {i : Nat} (hi : i < m.length) :
    (xorStream (xorStream m k₁) k₂).getD i 0 =
      m.getD i 0 ^^^ k₁.getD (i % k₁.length) 0 ^^^ k₂.getD (i % k₂.length) 0 := by
  rw [xorStream_getD _ k₂ (by rwa [xorStream_length]), xorStream_getD m k₁ hi]

/-- XORSTREAM is its own inverse: a key byte met twice cancels (R52). -/
@[simp] theorem xorStream_xorStream_same (m k : List Byte) : xorStream (xorStream m k) k = m := by
  refine List.ext_getElem (by simp) fun i _ _ => ?_
  rw [xorStream_getElem, xorStream_getElem, BitVec.xor_assoc, BitVec.xor_self, BitVec.xor_zero]

/-- Settles O21: the same key cancels, and two keys restore a byte exactly where their bytes agree. -/
theorem xorStreamSelfInverse : Obligations.XorStreamSelfInverse := by
  refine ⟨xorStream_xorStream_same, fun m k₁ k₂ => ⟨by simp, fun i hi => ?_⟩⟩
  have hbyte := xorStream_xorStream_getD m k₁ k₂ hi
  refine ⟨hbyte, ?_⟩
  rw [hbyte, ne_eq, BitVec.xor_assoc, xor_left_eq_self_iff]
  exact not_congr BitVec.xor_eq_zero_iff

/-! ### CIPHER (R53) -/

/-- `OUT` after a successful CIPHER: the message XORed with the repeating key below MLEN, and as before from there. -/
theorem memRead_cipherPost_out (s : State) (a : Nat) : memRead (cipherPost s) .out a =
    if a < s.mlen.toNat then memRead s .msg a ^^^ keyTerm s a else memRead s .out a := by
  simp only [memRead_cipherPost, cipherByte, true_and]

/-- A successful CIPHER writes `OUT` only. -/
theorem cipherPost_sameBytes (s : State) {sp : Space} (h : sp ≠ .out) : SameBytes s (cipherPost s) sp := by
  intro a
  rw [memRead_cipherPost, if_neg fun ⟨hout, _⟩ => h hout]

/-- Settles O35: admissible extents lead to `cipherPost`, all others to a raised BadConfig. -/
theorem cipherResult : Obligations.CipherResult := by
  intro s
  constructor
  · intro hfit
    have hexec := exec_cipher_ok ((fitsCipher_iff s).mpr hfit)
    exact ⟨cipherPost s, hexec, cipherPost_status s, cipherPost_olen s, cipherPost_corrected s,
      memRead_cipherPost_out s, cipherPost_sameBytes s nofun, cipherPost_sameBytes s nofun,
      cipherPost_sameBytes s nofun, exec_sameInputs hexec⟩
  · intro hfit
    exact exec_cipher_badConfig (Bool.eq_false_iff.mpr (mt (fitsCipher_iff s).mp hfit))

end Sys2Proof.Machine

/-! # The framer (41_framer.md)

A bit sequence and the number it spells determine each other, at every width (`getLsbD_ofNat_bitsVal`,
`bitsVal_eq_toNat`). TOBITS and FROMBITS are inverse by this at width 8, BUILDHDR and PARSEHDR at width 32. -/

namespace Sys2Proof.Machine

/-! ### A word and its bits, the most significant first (R29) -/

/-- Bit `q` of a sequence is bit `w - 1 - q` of the number it spells. -/
theorem getLsbD_ofNat_bitsVal {w : Nat} {s : List Bool} (hs : s.length = w) {q : Nat} (hq : q < s.length) :
    (BitVec.ofNat w (bitsVal s)).getLsbD (w - 1 - q) = s[q] := by
  subst hs
  have hlt : s.length - 1 - q < s.length := by omega
  rw [BitVec.getLsbD_ofNat, bitsVal_testBit s q hq, decide_eq_true hlt, Bool.true_and]

/-- A sequence that holds the bits of a word, the most significant first, spells that word. -/
theorem bitsVal_eq_toNat {w : Nat} {x : BitVec w} {s : List Bool} (hs : s.length = w)
    (hbit : ∀ q (hq : q < s.length), s[q] = x.getLsbD (w - 1 - q)) : bitsVal s = x.toNat := by
  have hword : BitVec.ofNat w (bitsVal s) = x := by
    refine BitVec.eq_of_getLsbD_eq fun i hi => ?_
    have hq : w - 1 - i < s.length := by omega
    have hi' : w - 1 - (w - 1 - i) = i := by omega
    have h := getLsbD_ofNat_bitsVal hs hq
    rwa [hbit _ hq, hi'] at h
  have hlt : bitsVal s < 2 ^ w := hs ▸ bitsVal_lt s
  rw [← hword, BitVec.toNat_ofNat, Nat.mod_eq_of_lt hlt]

@[simp] theorem bitsVal_byteBits (b : Byte) : bitsVal (byteBits b) = b.toNat :=
  bitsVal_eq_toNat (byteBits_length b) fun q _ => by simp [byteBits]

/-- PARSEHDR inverts BUILDHDR (R59). -/
@[simp] theorem parseHdr_buildHdr (L : Word) : parseHdr (buildHdr L) = L.toNat :=
  bitsVal_eq_toNat (buildHdr_length L) (buildHdr_getElem L)

/-- BUILDHDR inverts PARSEHDR on 32 bits (R59). -/
theorem buildHdr_parseHdr {h : List Bool} (hl : h.length = 32) : buildHdr (BitVec.ofNat 32 (parseHdr h)) = h := by
  refine List.ext_getElem (by simp [hl]) fun q _ hq => ?_
  rw [buildHdr_getElem]
  exact getLsbD_ofNat_bitsVal hl hq

/-! ### Bit by bit (R54 to R57) -/

theorem toBits_getD (m : List Byte) {i j : Nat} (hi : i < m.length) (hj : j < 8) :
    (toBits m).getD (8 * i + j) false = (m.getD i 0).getLsbD (7 - j) := by
  have hn : 8 * i + j < (toBits m).length := by rw [toBits_length]; omega
  have hdiv : (8 * i + j) / 8 = i := by omega
  have hmod : (8 * i + j) % 8 = j := by omega
  rw [List.getD_eq_getElem _ _ hn, List.getD_eq_getElem _ _ hi, toBits_getElem]
  simp only [hdiv, hmod]

/-- The `i`-th whole group of eight bits. -/
theorem group_length {s : List Bool} {i : Nat} (hi : i < s.length / 8) : ((s.drop (8 * i)).take 8).length = 8 := by
  rw [List.length_take, List.length_drop]
  omega

theorem group_getD (s : List Bool) (i : Nat) {j : Nat} (hj : j < 8) :
    ((s.drop (8 * i)).take 8).getD j false = s.getD (8 * i + j) false := by
  simp [List.getD_eq_getElem?_getD, hj]

/-- A byte of FROMBITS as the sum over its group (R55). -/
theorem fromBits_getD_toNat {s : List Bool} {i : Nat} (hi : i < s.length / 8) :
    ((fromBits s).getD i 0).toNat =
      ((List.range 8).map (fun j => (s.getD (8 * i + j) false).toNat * 2 ^ (7 - j))).sum := by
  have hi' : i < (fromBits s).length := by rwa [fromBits_length]
  have hlt : bitsVal ((s.drop (8 * i)).take 8) < 2 ^ 8 :=
    (bitsVal_lt _).trans_eq (congrArg _ (group_length hi))
  rw [List.getD_eq_getElem _ _ hi', fromBits_getElem, BitVec.toNat_ofNat, Nat.mod_eq_of_lt hlt, bitsVal_eq_sum,
    group_length hi]
  refine congrArg List.sum (List.map_congr_left fun j hj => ?_)
  rw [group_getD s i (List.mem_range.mp hj)]

theorem buildHdr_getD (L : Word) {q : Nat} (hq : q < 32) : (buildHdr L).getD q false = L.getLsbD (31 - q) := by
  have hq' : q < (buildHdr L).length := by rwa [buildHdr_length]
  rw [List.getD_eq_getElem _ _ hq', buildHdr_getElem]

/-- Settles O22: the element laws of TOBITS, FROMBITS and BUILDHDR; PARSEHDR is `bitsVal` at 32 bits. -/
theorem framerBits : Obligations.FramerBits := by
  refine ⟨fun m => ⟨toBits_length m, fun _ _ => toBits_getD m⟩,
    fun s => ⟨fromBits_length s, fun _ => fromBits_getD_toNat⟩,
    fun L => ⟨buildHdr_length L, fun _ => buildHdr_getD L⟩, fun h hl => ⟨?_, ?_⟩⟩
  · exact hl ▸ bitsVal_lt h
  · rw [parseHdr, bitsVal_eq_sum, hl]

/-! ### The Frame (R58) -/

theorem frame_eq (m : List Byte) : frame m = buildHdr (BitVec.ofNat 32 (8 * m.length)) ++ toBits m := by
  rw [frame, toBits_length]

theorem frame_take (m : List Byte) : (frame m).take 32 = buildHdr (BitVec.ofNat 32 (8 * m.length)) := by
  rw [frame_eq, List.take_left' (buildHdr_length _)]

theorem frame_drop (m : List Byte) : (frame m).drop 32 = toBits m := by
  rw [frame_eq, List.drop_left' (buildHdr_length _)]

/-- Settles O23: an index falls in the header or in the body, whose bits are already known. -/
theorem frameLayout : Obligations.FrameLayout := by
  refine fun m _ => ⟨frame_length m, fun q hq => ?_, fun i j hi hj => ?_⟩
  · have hlt : 31 - q < 32 := by omega
    rw [frame_eq, List.getD_append _ _ _ _ (by rwa [buildHdr_length]), buildHdr_getD _ hq, BitVec.getLsbD_ofNat,
      decide_eq_true hlt, Bool.true_and]
  · rw [frame_eq, List.getD_append_right _ _ _ _ (by rw [buildHdr_length]; omega), buildHdr_length, Nat.add_assoc,
      Nat.add_sub_cancel_left, toBits_getD m hi hj]

/-! ### The inverses (R59) -/

@[simp] theorem fromBits_toBits (m : List Byte) : fromBits (toBits m) = m := by
  induction m with
  | nil => rfl
  | cons b m ih =>
    rw [toBits_cons, fromBits_append _ _ (byteBits_length b), bitsVal_byteBits, BitVec.ofNat_toNat,
      BitVec.setWidth_eq, ih]

/-- TOBITS after FROMBITS loses the trailing group shorter than eight bits, and nothing else (R55, R59). -/
theorem toBits_fromBits (s : List Bool) : toBits (fromBits s) = s.take (8 * (s.length / 8)) := by
  refine List.ext_getElem (by simp; omega) fun n hn _ => ?_
  have hgroup : n / 8 < s.length / 8 := by rw [toBits_length, fromBits_length] at hn; omega
  have hj : n % 8 < ((s.drop (8 * (n / 8))).take 8).length := by rw [group_length hgroup]; omega
  have hn' : 8 * (n / 8) + n % 8 = n := Nat.div_add_mod n 8
  rw [toBits_getElem, fromBits_getElem, getLsbD_ofNat_bitsVal (group_length hgroup) hj]
  simp only [List.getElem_take, List.getElem_drop, hn']

theorem toBits_fromBits_of_whole {s : List Bool} (hs : s.length % 8 = 0) : toBits (fromBits s) = s := by
  have hlen : 8 * (s.length / 8) = s.length := by omega
  rw [toBits_fromBits, hlen, List.take_length]

/-- The header of a Frame parses back to the body's length in bits, where that length has 32 bits (R58, R59). -/
theorem parseHdr_frame_take {m : List Byte} (hm : 8 * m.length < 2 ^ 32) :
    parseHdr ((frame m).take 32) = 8 * m.length := by
  rw [frame_take, parseHdr_buildHdr, BitVec.toNat_ofNat, Nat.mod_eq_of_lt hm]

/-- Settles O24: each law by name; a Frame is cut into header and body by `frame_take` and `frame_drop`. -/
theorem framerInverses : Obligations.FramerInverses := by
  refine ⟨fromBits_toBits, fun _ => toBits_fromBits_of_whole, toBits_fromBits, parseHdr_buildHdr,
    fun _ => buildHdr_parseHdr, fun m hm => ⟨parseHdr_frame_take hm, ?_, ?_⟩⟩
  · rw [frame_length, Nat.add_sub_cancel_left]
  · rw [frame_drop, fromBits_toBits]

end Sys2Proof.Machine

/-! # The error-correcting code (42_fec.md)

FECDEC is read off `fecDec_eq` group by group, through the number of ones of a group (`groupOnes`). A flipped group of
FECENC has the flips' ones where the source bit is 0 and the rest of its three where it is 1 (`groupOnes_flipped`). -/

namespace Sys2Proof.Machine

/-! ### The truth table (R62) -/

/-- One group of FECDEC, as the circuit. -/
theorem fecDec_group (a b c : Bool) :
    fecDec [a, b, c] = ([(a && b) || (a && c) || (b && c)], if a = b ∧ b = c then 0 else 1) := by
  have hcount : groupCount a b c = if a = b ∧ b = c then 0 else 1 := by revert a b c; decide
  rw [fecDec_cons, fecDec_nil, groupBit_eq, hcount, Nat.add_zero]

/-- Settles O25: the eight rows are the circuit evaluated. -/
theorem fecTruthTable : Obligations.FecTruthTable :=
  ⟨fecDec_group .., fecDec_group .., fecDec_group .., fecDec_group .., fecDec_group .., fecDec_group ..,
    fecDec_group .., fecDec_group .., fecDec_group⟩

/-! ### Bit by bit (R60, R61) -/

theorem fecEnc_getD (s : List Bool) {n : Nat} (hn : n < 3 * s.length) :
    (fecEnc s).getD n false = s.getD (n / 3) false := by
  have hn' : n < (fecEnc s).length := by rwa [fecEnc_length]
  have hdiv : n / 3 < s.length := by omega
  rw [List.getD_eq_getElem _ _ hn', List.getD_eq_getElem _ _ hdiv, fecEnc_getElem]

/-- The number of ones of group `g` of a coded sequence (R61). -/
def groupOnes (t : List Bool) (g : Nat) : Nat :=
  ones (t.getD (3 * g) false) (t.getD (3 * g + 1) false) (t.getD (3 * g + 2) false)

/-- A group is counted exactly when it has one or two ones (R61). -/
theorem groupCount_eq_toNat (a b c : Bool) : groupCount a b c = (ones a b c == 1 || ones a b c == 2).toNat := by
  revert a b c; decide

@[simp] theorem fecDec_length (t : List Bool) : (fecDec t).1.length = t.length / 3 := by
  rw [fecDec_eq, List.length_map, List.length_range]

/-- Every bit of FECDEC is its group's majority. -/
theorem fecDec_getD {t : List Bool} {g : Nat} (hg : g < t.length / 3) :
    (fecDec t).1.getD g false = decide (2 ≤ groupOnes t g) := by
  have hg' : g < (fecDec t).1.length := by rwa [fecDec_length]
  rw [List.getD_eq_getElem _ _ hg']
  simp only [fecDec_eq, List.getElem_map, List.getElem_range]
  rfl

theorem fecDec_count (t : List Bool) :
    (fecDec t).2 = (List.range (t.length / 3)).countP (fun g => groupOnes t g == 1 || groupOnes t g == 2) := by
  rw [countP_eq_sum, fecDec_eq]
  simp only [groupCount_eq_toNat, groupOnes]

theorem fecDec_count_le (t : List Bool) : (fecDec t).2 ≤ t.length / 3 := by
  rw [fecDec_count]
  exact List.countP_le_length.trans_eq List.length_range

/-- Settles O26: the element laws of FECENC and FECDEC, a group's ones being `groupOnes`. -/
theorem fecBits : Obligations.FecBits :=
  ⟨fun s => ⟨fecEnc_length s, fun _ => fecEnc_getD s⟩,
    fun t => ⟨fecDec_length t, fun _ => fecDec_getD, fecDec_count t, fecDec_count_le t⟩⟩

/-! ### Flips of coded bits (R63) -/

/-- A clean channel loses nothing and counts nothing. -/
@[simp] theorem fecDec_fecEnc (s : List Bool) : fecDec (fecEnc s) = (s, 0) := by
  induction s with
  | nil => rfl
  | cons b s ih =>
    obtain ⟨hbit, hcount⟩ : groupBit b b b = b ∧ groupCount b b b = 0 := by cases b <;> decide
    rw [fecEnc_cons, fecDec_cons, ih, hbit, hcount, Nat.zero_add]

theorem fecDec_append : ∀ {a : List Bool} (b : List Bool), a.length % 3 = 0 →
    fecDec (a ++ b) = ((fecDec a).1 ++ (fecDec b).1, (fecDec a).2 + (fecDec b).2)
  | [], b, _ => by simp
  | [_], _, h | [_, _], _, h => by simp at h
  | x :: y :: z :: a, b, h => by
    have ih := fecDec_append (a := a) b (by rwa [← Nat.add_mod_right])
    simp only [List.cons_append, fecDec_cons, ih, Nat.add_assoc]

theorem groupOnes_le (t : List Bool) (g : Nat) : groupOnes t g ≤ 3 := by
  have hones : ∀ a b c, ones a b c ≤ 3 := by decide
  exact hones ..

/-- Flips of three copies of a bit show as ones where it is 0 and as zeros where it is 1. -/
theorem ones_xor (b x y z : Bool) : ones (b ^^ x) (b ^^ y) (b ^^ z) = if b then 3 - ones x y z else ones x y z := by
  cases b
  · simp
  · revert x y z; decide

/-- The majority of three copies of `b` with `n` of them flipped. -/
theorem majority_of_flips {n : Nat} (hn : n ≤ 3) (b : Bool) :
    decide (2 ≤ if b then 3 - n else n) = if n ≤ 1 then b else !b := by
  revert b
  interval_cases n <;> decide

/-- Three copies of `b` with `n` of them flipped differ among themselves exactly when `n` is one or two. -/
theorem split_of_flips {n : Nat} (hn : n ≤ 3) (b : Bool) :
    ((if b then 3 - n else n) == 1 || (if b then 3 - n else n) == 2) = (n == 1 || n == 2) := by
  revert b
  interval_cases n <;> decide

/-- The coded sequence of `s` with the bits that are 1 in `e` flipped. -/
def flipped (s e : List Bool) : List Bool := List.zipWith (fun x y => x ^^ y) (fecEnc s) e

section Flipped
variable {s e : List Bool} (he : e.length = 3 * s.length)
include he

theorem flipped_length : (flipped s e).length = 3 * s.length := by
  rw [flipped, List.length_zipWith, fecEnc_length, he, Nat.min_self]

theorem flipped_groups : (flipped s e).length / 3 = s.length := by
  rw [flipped_length he, Nat.mul_div_cancel_left _ (by decide)]

theorem flipped_getD {g j : Nat} (hg : g < s.length) (hj : j < 3) :
    (flipped s e).getD (3 * g + j) false = (s.getD g false ^^ e.getD (3 * g + j) false) := by
  have hn : 3 * g + j < 3 * s.length := by omega
  have hdiv : (3 * g + j) / 3 = g := by omega
  have henc := fecEnc_getD s hn
  rw [hdiv, List.getD_eq_getElem _ _ (by rwa [fecEnc_length])] at henc
  rw [List.getD_eq_getElem _ _ (by rwa [flipped_length he]), List.getD_eq_getElem e _ (by rwa [he]), ← henc]
  exact List.getElem_zipWith

theorem groupOnes_flipped {g : Nat} (hg : g < s.length) :
    groupOnes (flipped s e) g = if s.getD g false then 3 - groupOnes e g else groupOnes e g := by
  have h0 := flipped_getD he hg (j := 0) (by decide)
  rw [Nat.add_zero] at h0
  rw [groupOnes, h0, flipped_getD he hg (by decide), flipped_getD he hg (by decide), ones_xor, groupOnes]

/-- At most one flip in a group is corrected; two or three turn the bit over (R63 b to d). -/
theorem fecDec_flipped_getD {g : Nat} (hg : g < s.length) :
    (fecDec (flipped s e)).1.getD g false = if groupOnes e g ≤ 1 then s.getD g false else !(s.getD g false) := by
  rw [fecDec_getD (by rwa [flipped_groups he]), groupOnes_flipped he hg, majority_of_flips (groupOnes_le e g)]

/-- A group is counted exactly when one or two of its bits were flipped (R63 b to d). -/
theorem fecDec_flipped_count : (fecDec (flipped s e)).2 =
    (List.range s.length).countP (fun g => groupOnes e g == 1 || groupOnes e g == 2) := by
  rw [fecDec_count, flipped_groups he]
  refine List.countP_congr fun g hg => ?_
  rw [groupOnes_flipped he (List.mem_range.mp hg), split_of_flips (groupOnes_le e g)]

end Flipped

/-- Settles O27: the clean channel, the flips group by group, and the append law by name. -/
theorem fecUnderFlips : Obligations.FecUnderFlips :=
  ⟨fecDec_fecEnc,
    fun _ _ he => ⟨(fecDec_length _).trans (flipped_groups he), fun _ => fecDec_flipped_getD he,
      fecDec_flipped_count he⟩,
    fun _ => fecDec_append⟩

end Sys2Proof.Machine

/-! # The pixels (43_pixel.md)

EMBED answers the state `embedPost`, read in four ways: a colour byte of a pixel, an alpha byte of the buffer, a byte
that is neither, and a byte past the buffer. Every statement about embedding is taken from these. -/

namespace Sys2Proof.Machine

/-! ### ALPHAFORCE (R65) -/

theorem memRead_alphaForce_alpha {s : State} {p : Nat} (hp : p < npix s) :
    memRead (alphaForce s) .pix (4 * p + 3) = 255#8 := by
  rw [memRead_alphaForce, if_pos ⟨rfl, by omega, by omega⟩]

theorem memRead_alphaForce_other {s : State} {sp : Space} {a : Nat}
    (h : ¬(sp = .pix ∧ ∃ p, p < npix s ∧ a = 4 * p + 3)) : memRead (alphaForce s) sp a = memRead s sp a := by
  rw [memRead_alphaForce, if_neg]
  rintro ⟨hsp, hmod, hdiv⟩
  exact h ⟨hsp, a / 4, hdiv, by omega⟩

theorem memRead_alphaForce_colour (s : State) (p : Nat) {ch : Nat} (hch : ch < 3) :
    memRead (alphaForce s) .pix (4 * p + ch) = memRead s .pix (4 * p + ch) :=
  memRead_alphaForce_other fun ⟨_, q, _, ha⟩ => by omega

theorem alphaForce_sameInputs (s : State) : SameInputs s (alphaForce s) := by simp [SameInputs]

/-- Settles O29: the alpha bytes of the buffer, every other byte, and the registers, by a law each. -/
theorem alphaForceBytes : Obligations.AlphaForceBytes := fun s =>
  ⟨fun _ => memRead_alphaForce_alpha, fun _ _ => memRead_alphaForce_other,
    alphaForce_status s, alphaForce_olen s, alphaForce_corrected s, alphaForce_sameInputs s⟩

/-! ### EMBED (R66) -/

/-- What EMBED leaves when the coded sequence fits the capacity. -/
def embedPost (t : List Bool) (s : State) : State := embedBits 0 t (alphaForce s)

theorem embed_insufficient {s : State} {t : List Bool} (h : cap s < t.length) :
    embed t s = .error .insufficientCapacity := if_pos h

theorem embed_ok {s : State} {t : List Bool} (h : t.length ≤ cap s) : embed t s = .ok (embedPost t s) :=
  if_neg (Nat.not_lt.mpr h)

/-- The inversion of EMBED: the one state it answers. -/
theorem embed_eq_ok {s u : State} {t : List Bool} (h : embed t s = .ok u) : t.length ≤ cap s ∧ u = embedPost t s := by
  by_cases ht : t.length ≤ cap s
  · rw [embed_ok ht] at h
    exact ⟨ht, (Except.ok.inj h).symm⟩
  · rw [embed_insufficient (by omega)] at h
    cases h

section EmbedPost
variable (t : List Bool) (s : State)

theorem embedPost_sameInputs : SameInputs s (embedPost t s) := by simp [SameInputs, embedPost]

/-- A colour byte gets its coded bit, if it has one. -/
theorem memRead_embedPost_colour (p : Nat) {ch : Nat} (hch : ch < 3) :
    memRead (embedPost t s) .pix (4 * p + ch) =
      if 3 * p + ch < t.length then putLsb (memRead s .pix (4 * p + ch)) (t.getD (3 * p + ch) false)
      else memRead s .pix (4 * p + ch) := by
  rw [embedPost, ← memRead_alphaForce_colour s p hch]
  split
  next hn =>
    have hslot := memRead_embedBits_slot 0 t (alphaForce s) (3 * p + ch) hn
    rwa [Nat.zero_add, slot_pixel hch, ← List.getD_eq_getElem t false hn] at hslot
  next hn =>
    refine memRead_embedBits_other _ _ _ _ _ fun _ i hi ha => ?_
    have hi' : 3 * p + ch = 0 + i := slot_injective ((slot_pixel hch).trans ha)
    omega

variable {t s}

theorem memRead_embedPost_alpha {p : Nat} (hp : p < npix s) :
    memRead (embedPost t s) .pix (4 * p + 3) = 255#8 := by
  rw [embedPost, ← alphaAt_eq, memRead_embedBits_other _ _ _ _ _ fun _ i _ ha => slot_ne_alphaAt (0 + i) p ha.symm,
    alphaAt_eq, memRead_alphaForce_alpha hp]

theorem memRead_embedPost_other {sp : Space} {a : Nat}
    (h : ¬(sp = .pix ∧ ((∃ n, n < t.length ∧ a = 4 * (n / 3) + n % 3) ∨ ∃ p, p < npix s ∧ a = 4 * p + 3))) :
    memRead (embedPost t s) sp a = memRead s sp a := by
  rw [embedPost, memRead_embedBits_other, memRead_alphaForce_other fun ⟨hsp, hp⟩ => h ⟨hsp, .inr hp⟩]
  intro hsp i hi ha
  rw [Nat.zero_add, slot_eq] at ha
  exact h ⟨hsp, .inl ⟨i, hi, ha⟩⟩

theorem memRead_embedPost_beyond (ht : t.length ≤ cap s) {a : Nat} (ha : 4 * npix s ≤ a) :
    memRead (embedPost t s) .pix a = memRead s .pix a := by
  rw [cap_eq] at ht
  refine memRead_embedPost_other ?_
  rintro ⟨-, ⟨n, hn, rfl⟩ | ⟨p, hp, rfl⟩⟩ <;> omega

end EmbedPost

/-- Settles O30: coded bit `n` lies in channel `n mod 3` of pixel `n div 3`, so its byte is a colour byte. -/
theorem embedBytes : Obligations.EmbedBytes := by
  intro s t
  refine ⟨embed_insufficient, fun ht => ⟨_, embed_ok ht, fun n hn => ?_, fun _ => memRead_embedPost_alpha,
    fun _ _ => memRead_embedPost_other, ?_, ?_, ?_, embedPost_sameInputs t s⟩⟩
  · rw [memRead_embedPost_colour t s _ (Nat.mod_lt n (by decide)), Nat.div_add_mod, if_pos hn]
    rfl
  · rw [embedPost, embedBits_status, alphaForce_status]
  · rw [embedPost, embedBits_olen, alphaForce_olen]
  · rw [embedPost, embedBits_corrected, alphaForce_corrected]

/-! ### What embedding preserves (R70) -/

theorem putLsb_getLsbD_above (v : Byte) (b : Bool) {j : Nat} (hj : 1 ≤ j) :
    (putLsb v b).getLsbD j = v.getLsbD j := by
  have hclear : Config.lsbClear = ~~~1#8 := by decide
  have hone : (1#8).getLsbD j = false := by
    rw [BitVec.getLsbD_one, decide_eq_false (p := j = 0) (by omega), Bool.and_false]
  have hput : (if b then 1#8 else 0#8).getLsbD j = false := by cases b <;> simp [hone]
  rw [putLsb, hclear, BitVec.getLsbD_or, BitVec.getLsbD_and, BitVec.getLsbD_not, hone, hput, Bool.or_false,
    Bool.not_false, Bool.and_true, Bool.and_eq_left_iff_imp, decide_eq_true_iff]
  exact BitVec.lt_of_getLsbD

/-- Bytes that agree above bit 0 differ by at most 1 in value. -/
theorem toNat_within_one {v w : Byte} (h : ∀ j, 1 ≤ j → w.getLsbD j = v.getLsbD j) :
    w.toNat ≤ v.toNat + 1 ∧ v.toNat ≤ w.toNat + 1 := by
  have hhalf : w.toNat / 2 = v.toNat / 2 := Nat.eq_of_testBit_eq fun j => by
    rw [Nat.testBit_div_two, Nat.testBit_div_two]
    exact h (j + 1) (by omega)
  omega

/-- Settles O31: a colour byte is as before or has bit 0 replaced, and its value follows from its bits above bit 0. -/
theorem embedPreserves : Obligations.EmbedPreserves := by
  intro s u t h
  obtain ⟨-, rfl⟩ := embed_eq_ok h
  obtain ⟨hwidth, hheight, -⟩ := embedPost_sameInputs t s
  refine ⟨hwidth, hheight, fun p ch _ hch => ?_⟩
  have hcolour := memRead_embedPost_colour t s p hch
  have habove : ∀ j, 1 ≤ j → (memRead (embedPost t s) .pix (4 * p + ch)).getLsbD j =
      (memRead s .pix (4 * p + ch)).getLsbD j := by
    intro j hj
    rw [hcolour]
    split
    · exact putLsb_getLsbD_above _ _ hj
    · rfl
  exact ⟨habove, toNat_within_one habove, fun ht => by rw [hcolour, if_neg (Nat.not_lt.mpr ht)]⟩

/-! ### A coded Frame, pixel by pixel (R69) -/

/-- The three colour bytes of a pixel get the one Frame bit the pixel carries. -/
theorem memRead_embedPost_fecEnc_colour (f : List Bool) (s : State) (p : Nat) {ch : Nat} (hch : ch < 3) :
    memRead (embedPost (fecEnc f) s) .pix (4 * p + ch) =
      if p < f.length then putLsb (memRead s .pix (4 * p + ch)) (f.getD p false)
      else memRead s .pix (4 * p + ch) := by
  rw [memRead_embedPost_colour _ _ _ hch, fecEnc_length]
  by_cases hp : p < f.length
  · have hn : 3 * p + ch < 3 * f.length := by omega
    have hdiv : (3 * p + ch) / 3 = p := by omega
    rw [if_pos hn, if_pos hp, fecEnc_getD f hn, hdiv]
  · rw [if_neg (by omega), if_neg hp]

/-- Settles O34: the reads of `embedPost` at a coded Frame, and FECDEC of a region of whole pixels. -/
theorem pixelClosedForm : Obligations.PixelClosedForm := by
  refine ⟨fun s f hf => ?_, fun s a b hab => ?_⟩
  · have ht : (fecEnc f).length ≤ cap s := by rwa [fecEnc_length]
    exact ⟨_, embed_ok ht,
      fun p hp => ⟨memRead_embedPost_alpha hp, fun _ => memRead_embedPost_fecEnc_colour f s p⟩,
      fun _ => memRead_embedPost_beyond ht⟩
  · have hregion := fecDec_region s a b
    exact ⟨_, extract_region hab, congrArg Prod.fst hregion, congrArg Prod.snd hregion⟩

/-! ### EXTRACT and VALIDATEHDR (R67, R68) -/

theorem extract_truncated {s : State} {off cnt : Nat} (h : cap s < off + cnt) :
    extract s off cnt = .error .truncatedExtraction := if_pos h

theorem extract_ok {s : State} {off cnt : Nat} (h : off + cnt ≤ cap s) :
    extract s off cnt = .ok ((List.range cnt).map fun i => codedBit s (off + i)) :=
  if_neg (Nat.not_lt.mpr h)

/-- Settles O32: the bit of index `i` is the coded bit `off + i`. -/
theorem extractBits : Obligations.ExtractBits := by
  intro s off cnt
  refine ⟨extract_truncated, fun h => ⟨_, extract_ok h, by simp, fun i hi => ?_⟩⟩
  rw [List.getD_eq_getElem _ _ (by simpa using hi), List.getElem_map, List.getElem_range, codedBit, slot_eq]

/-- Settles O33: `96 + 3L ≤ CAP` is `32 + L ≤ NPIX`, since CAP is `3 * NPIX`. -/
theorem headerValidation : Obligations.HeaderValidation := by
  intro s L
  rw [validateHdr_eq, cap_eq]
  refine ⟨fun ⟨hpos, h8, hcap⟩ => ⟨if_pos ⟨hpos, h8, by omega⟩, by omega⟩, fun h => if_neg ?_⟩
  rintro ⟨hpos, h8, hnpix⟩
  exact h ⟨hpos, h8, by omega⟩

end Sys2Proof.Machine

/-! # The commands (44_commands.md)

ENCODE leaves `encodePost`: the pixel it writes is read by `memRead_encodePost_colour`, whose bit is the closed form
`frameBit`. DECODE of a buffer that a channel has touched is said once, over `Received`: with an intact header it
completes, and each body bit is `frameBit` turned over exactly where two or more of the pixel's three bits flipped. The
laws of R75 are the cases of this by the number of flips and by the key. -/

namespace Sys2Proof.Machine

/-! ### Words that are no command (R76) -/

/-- A word that is no command's raises IllegalCommand. -/
theorem runCommand_illegal {w : Word} (hw : ∀ i, w ≠ Sys2Proof.encode i) (s : State) :
    runCommand w s = .next (raise .illegalCommand s) := by
  rcases runCommand_cases w s with ⟨i, hi, -⟩ | h
  · exact absurd (decode_eq_ok_iff.mp hi) (hw i)
  · exact h

/-- Settles O7: the three words left out are the encodings of the three commands. -/
theorem illegalWord : Obligations.IllegalWord := by
  refine ⟨rfl, fun s rest w hp h1 h2 h3 => ?_⟩
  have hw : ∀ i, w ≠ Sys2Proof.encode i
    | .cipher => h1
    | .encode => h2
    | .decode => h3
  rw [step_serve hp, serve_cmd, runCommand_illegal hw]
  rfl

/-! ### ENCODE in closed form (R72, R74) -/

/-- A successful ENCODE found admissible extents and enough capacity. -/
theorem exec_encode_ok_inv {s t : State} (h : exec .encode s = .next t) (hst : t.status = .ok) :
    fitsEncode s = true ∧ 32 + 8 * s.mlen.toNat ≤ npix s ∧ t = encodePost s := by
  rcases exec_cases h with ⟨hi, -⟩ | ⟨-, hfit, hn, rfl⟩ | ⟨L, hi, -⟩ | ⟨f, rfl, -⟩
  · cases hi
  · exact ⟨hfit, hn, rfl⟩
  · cases hi
  · cases hst

/-- The Frame ENCODE embeds (R72). -/
def encodedFrame (s : State) : List Bool := frame ((List.range s.mlen.toNat).map (cipherByte s))

theorem encodePost_eq_embedPost (s : State) :
    encodePost s = succeed 0 0 (embedPost (fecEnc (encodedFrame s)) s) := rfl

@[simp] theorem encodedFrame_length (s : State) : (encodedFrame s).length = 32 + 8 * s.mlen.toNat := by
  simp [encodedFrame]

@[simp] theorem npix_encodePost (s : State) : npix (encodePost s) = npix s := by simp [npix]

@[simp] theorem keyTerm_encodePost (s : State) (i : Nat) : keyTerm (encodePost s) i = keyTerm s i :=
  keyTerm_congr (encodePost_klen s) (fun _ _ => memRead_encodePost_other s (sp := .key) nofun _) i

@[simp] theorem cipherByte_encodePost (s : State) (i : Nat) : cipherByte (encodePost s) i = cipherByte s i := by
  rw [cipherByte, cipherByte, memRead_encodePost_other s (sp := .msg) nofun, keyTerm_encodePost]

@[simp] theorem frameBit_encodePost (s : State) (p : Nat) : frameBit (encodePost s) p = frameBit s p := by
  rw [frameBit, frameBit, encodePost_mlen, cipherByte_encodePost]

/-- The bits of a body byte are the Frame bits of its eight pixels (R45, R74). -/
theorem frameBit_body (s : State) (i : Nat) {j : Nat} (hj : j < 8) :
    frameBit s (32 + 8 * i + j) = (cipherByte s i).getLsbD (7 - j) := by
  have hdiv : (32 + 8 * i + j - 32) / 8 = i := by omega
  have hmod : (32 + 8 * i + j - 32) % 8 = j := by omega
  rw [frameBit, if_neg (by omega), hdiv, hmod]

/-- A pixel byte lies past the buffer, or is the alpha or a colour byte of one of its pixels (R27). -/
theorem pix_offset_cases (n a : Nat) :
    4 * n ≤ a ∨ ∃ p, p < n ∧ (a = 4 * p + 3 ∨ ∃ ch, ch < 3 ∧ a = 4 * p + ch) := by
  by_cases ha : 4 * n ≤ a
  · exact .inl ha
  refine .inr ⟨a / 4, by omega, ?_⟩
  by_cases hmod : a % 4 = 3
  · exact .inl (by omega)
  · exact .inr ⟨a % 4, by omega, by omega⟩

theorem memRead_encodePost_alpha {s : State} {p : Nat} (hp : p < npix s) :
    memRead (encodePost s) .pix (4 * p + 3) = 255#8 := by
  rw [encodePost_eq_embedPost, memRead_succeed, memRead_embedPost_alpha hp]

section Encoded
variable {s : State} (hn : 32 + 8 * s.mlen.toNat ≤ npix s)
include hn

/-- A body that fits the buffer has a length the header can hold (R18, R72). -/
theorem bodyBits_lt : 8 * s.mlen.toNat < 2 ^ 32 := by
  have hle := npix_le s
  omega

/-- The bits of the embedded Frame are the closed form of R74. -/
theorem encodedFrame_getD {p : Nat} (hp : p < 32 + 8 * s.mlen.toNat) :
    (encodedFrame s).getD p false = frameBit s p := by
  obtain ⟨-, hheader, hbody⟩ :=
    frameLayout ((List.range s.mlen.toNat).map (cipherByte s)) (by simpa using bodyBits_lt hn)
  rw [List.length_map, List.length_range] at hheader hbody
  by_cases h32 : p < 32
  · rw [frameBit, if_pos h32]
    exact hheader p h32
  · obtain ⟨i, j, hj, rfl⟩ : ∃ i j, j < 8 ∧ p = 32 + 8 * i + j := ⟨(p - 32) / 8, (p - 32) % 8, by omega, by omega⟩
    have hi : i < s.mlen.toNat := by omega
    rw [frameBit_body s i hj, encodedFrame]
    simpa [hi] using hbody i j hi hj

/-- The colour bytes of a pixel after ENCODE (R74). -/
theorem memRead_encodePost_colour (p : Nat) {ch : Nat} (hch : ch < 3) :
    memRead (encodePost s) .pix (4 * p + ch) =
      if p < 32 + 8 * s.mlen.toNat then putLsb (memRead s .pix (4 * p + ch)) (frameBit s p)
      else memRead s .pix (4 * p + ch) := by
  rw [encodePost_eq_embedPost, memRead_succeed, memRead_embedPost_fecEnc_colour _ _ _ hch, encodedFrame_length]
  split
  next hp => rw [encodedFrame_getD hn hp]
  next => rfl

/-- The three copies of a Frame bit in its pixel (R47). -/
theorem lsb_encodePost {p ch : Nat} (hp : p < 32 + 8 * s.mlen.toNat) (hch : ch < 3) :
    lsb (encodePost s) p ch = frameBit s p := by
  rw [lsb, memRead_encodePost_colour hn p hch, if_pos hp, putLsb_bit0]

/-- A second ENCODE puts the bits that are there already (R72 corner case e). -/
theorem encodePost_encodePost_sameMemory : SameMemory (encodePost s) (encodePost (encodePost s)) := by
  intro sp a
  by_cases hsp : sp = .pix
  swap
  · exact memRead_encodePost_other _ hsp a
  subst hsp
  have hn' : 32 + 8 * (encodePost s).mlen.toNat ≤ npix (encodePost s) := by simpa using hn
  rcases pix_offset_cases (npix s) a with ha | ⟨p, hp, rfl | ⟨ch, hch, rfl⟩⟩
  · exact memRead_encodePost_beyond hn' (by simpa using ha)
  · rw [memRead_encodePost_alpha hp, memRead_encodePost_alpha (by simpa using hp)]
  · rw [memRead_encodePost_colour hn' p hch, memRead_encodePost_colour hn p hch, encodePost_mlen, frameBit_encodePost]
    split
    · exact putLsb_putLsb ..
    · rfl

end Encoded

/-- Settles O36: `encodePost` read at an alpha byte, at a colour byte and past the buffer. -/
theorem encodeResult : Obligations.EncodeResult := by
  intro s hmsg hkey hpix hn
  have hexec := exec_encode_ok ((fitsEncode_iff s).mpr ⟨hmsg, hkey, hpix⟩) hn
  exact ⟨encodePost s, hexec, encodePost_status s, encodePost_olen s, encodePost_corrected s,
    fun p hp => ⟨memRead_encodePost_alpha hp, fun _ => memRead_encodePost_colour hn p⟩,
    fun _ => memRead_encodePost_beyond hn,
    memRead_encodePost_other s nofun, memRead_encodePost_other s nofun, memRead_encodePost_other s nofun,
    exec_sameInputs hexec⟩

/-- Settles O46: the operands are as before, so the second ENCODE passes the same checks. -/
theorem encodeIsIdempotent : Obligations.EncodeIsIdempotent := by
  intro s t h hst
  obtain ⟨hfit, hn, rfl⟩ := exec_encode_ok_inv h hst
  have hfit' : fitsEncode (encodePost s) = true := by simpa [fitsEncode] using hfit
  exact ⟨_, exec_encode_ok hfit' (by simpa using hn), encodePost_status _, encodePost_encodePost_sameMemory hn⟩

/-! ### DECODE in closed form (R73) -/

/-- Settles O37: one law of DECODE for each of the four outcomes. -/
theorem decodeResult : Obligations.DecodeResult := by
  intro s
  refine ⟨fun ⟨hkey, hpix, _, hpos, h8, hn⟩ => ?_, fun hbad => ?_, fun hfit hn => ?_, fun hfit hn hbad => ?_⟩
  · have hexec := exec_decode_ok ((fitsDecode_iff s).mpr ⟨hkey, hpix⟩) rfl hpos h8 hn
    refine ⟨_, hexec, decodePost_status .., decodePost_olen_toNat hn, decodePost_corrected_toNat hn, fun a => ?_,
      ?_, ?_, ?_, exec_sameInputs hexec⟩
    · simp only [memRead_decodePost, true_and]
    · exact fun a => exec_keeps hexec nofun nofun
    · exact fun a => exec_keeps hexec nofun nofun
    · exact fun a => exec_keeps hexec nofun nofun
  · exact exec_decode_badConfig (Bool.eq_false_iff.mpr (mt (fitsDecode_iff s).mp hbad))
  · exact exec_decode_truncated ((fitsDecode_iff s).mpr hfit) hn
  · exact exec_decode_corrupt ((fitsDecode_iff s).mpr hfit) hn rfl hbad

/-- Settles O48: a header that passes has a positive length, and 32 pixels leave no room for one. -/
theorem thirtyTwoPixels : Obligations.ThirtyTwoPixels := by
  intro s hfit hn
  refine exec_decode_corrupt hfit hn.ge rfl ?_
  rintro ⟨hpos, -, hroom⟩
  omega

theorem headerLen_of_zero {s : State} (h : ∀ p, p < 32 → pixelBit s p = false) : headerLen s = 0 := by
  rw [headerLen, List.sum_eq_zero_iff_forall_eq_nat]
  intro x hx
  obtain ⟨q, hq, rfl⟩ := List.mem_map.mp hx
  rw [h q (List.mem_range.mp hq), Bool.toNat_false, Nat.zero_mul]

/-- Settles O54: three zeros vote 0, so the header spells the length 0. -/
theorem zeroedHeader : Obligations.ZeroedHeader := by
  intro s hfit hn hzero
  refine exec_decode_corrupt hfit hn (headerLen_of_zero fun p hp => ?_) (fun ⟨hpos, _⟩ => absurd hpos (by decide))
  rw [pixelBit, hzero p 0 hp (by decide), hzero p 1 hp (by decide), hzero p 2 hp (by decide)]
  rfl

/-! ### The first command after reset (V-CMD 6 to 8) -/

/-- Settles O3: after reset the extents are all 0, so they fit, and the buffer has no pixel. -/
theorem firstCommandAfterReset : Obligations.FirstCommandAfterReset := by
  intro p
  have hcipher : fitsCipher (State.initial p) = true :=
    (fitsCipher_iff _).mpr ⟨Nat.zero_le _, Nat.zero_le _, Nat.zero_le _⟩
  have hencode : fitsEncode (State.initial p) = true :=
    (fitsEncode_iff _).mpr ⟨Nat.zero_le _, Nat.zero_le _, Nat.zero_le _⟩
  have hdecode : fitsDecode (State.initial p) = true :=
    (fitsDecode_iff _).mpr ⟨Nat.zero_le _, Nat.zero_le _⟩
  have hnpix : npix (State.initial p) = 0 := rfl
  exact ⟨exec_cipher_ok hcipher, exec_encode_insufficient hencode (by omega),
    exec_decode_truncated hdecode (by omega)⟩

/-! ### What DECODE reads of a pixel that flips have touched (R63, R69) -/

/-- The vote of a pixel whose three bits were `b` and of which some were flipped. -/
theorem pixelBit_of_flips {t u : State} {p : Nat} {b : Bool} (hb : ∀ ch, ch < 3 → lsb t p ch = b) :
    pixelBit u p = if flips t u p ≤ 1 then b else !b := by
  rw [pixelBit, flips, hb 0 (by decide), hb 1 (by decide), hb 2 (by decide)]
  clear hb
  generalize lsb u p 0 = x, lsb u p 1 = y, lsb u p 2 = z
  revert b x y z
  decide

/-- Such a pixel is counted exactly when one or two of its bits were flipped. -/
theorem pixelSplit_of_flips {t u : State} {p : Nat} {b : Bool} (hb : ∀ ch, ch < 3 → lsb t p ch = b) :
    pixelSplit u p = (flips t u p == 1 || flips t u p == 2) := by
  rw [pixelSplit, flips, hb 0 (by decide), hb 1 (by decide), hb 2 (by decide)]
  clear hb
  generalize lsb u p 0 = x, lsb u p 1 = y, lsb u p 2 = z
  revert b x y z
  decide

/-- A body byte bit by bit: its most significant bit comes from its first pixel (R48, R55). -/
theorem bodyByte_getLsbD (u : State) (i : Nat) {j : Nat} (hj : j < 8) :
    (bodyByte u i).getLsbD (7 - j) = pixelBit u (32 + 8 * i + j) := by
  have hbyte : bodyByte u i = BitVec.ofNat 8 (bitsVal ((List.range 8).map fun j => pixelBit u (32 + 8 * i + j))) := by
    rw [bitsVal_eq_sum]
    rfl
  rw [hbyte, getLsbD_ofNat_bitsVal (by simp) (by simpa using hj)]
  simp

/-- Bytes are equal when they are so bit by bit, counted from the most significant one (R29). -/
theorem byte_eq_of_getLsbD {v w : Byte} (h : ∀ j, j < 8 → v.getLsbD (7 - j) = w.getLsbD (7 - j)) : v = w := by
  refine BitVec.eq_of_getLsbD_eq fun k hk => ?_
  have hk' : 7 - (7 - k) = k := by omega
  simpa only [hk'] using h (7 - k) (by omega)

/-- One number of a range, counted when a condition holds. -/
theorem countP_range_single {n p₀ : Nat} (hp : p₀ < n) (c : Prop) [Decidable c] :
    (List.range n).countP (fun p => p == p₀ && decide c) = if c then 1 else 0 := by
  by_cases hc : c
  · simpa [List.count, hc] using List.count_eq_one_of_mem List.nodup_range (List.mem_range.mpr hp)
  · simp [hc]

/-! ### DECODE of what a channel delivers (R75) -/

theorem decodePost_olen_whole (u : State) (m : Word) : (decodePost u (8 * m.toNat)).olen = m := by
  rw [decodePost_olen, Nat.mul_div_cancel_left _ (by decide), BitVec.ofNat_toNat, BitVec.setWidth_eq]

theorem memRead_decodePost_out (u : State) {n i : Nat} (hi : i < n) :
    memRead (decodePost u (8 * n)) .out i = bodyByte u i ^^^ keyTerm u i := by
  rw [memRead_decodePost, if_pos ⟨rfl, by omega⟩]

/-- The key byte met twice cancels (R52). -/
@[simp] theorem cipherByte_xor_keyTerm (s : State) (i : Nat) : cipherByte s i ^^^ keyTerm s i = memRead s .msg i := by
  rw [cipherByte, BitVec.xor_assoc, BitVec.xor_self, BitVec.xor_zero]

/-- `u` is a buffer that an ENCODE of `s` can have become on its way to DECODE: the dimensions are kept, some key that
fits is set, and no header pixel has lost its vote. -/
structure Received (s u : State) : Prop where
  fits : fitsEncode s = true
  room : 32 + 8 * s.mlen.toNat ≤ npix s
  nonempty : 1 ≤ s.mlen.toNat
  setup : SameSetup (encodePost s) u
  keyFits : u.klen.toNat ≤ u.params.keyBytes
  header : ∀ p, p < 32 → flips (encodePost s) u p ≤ 1

section Received
variable {s u : State} (h : Received s u)
include h

theorem Received.npix_eq : npix u = npix s := by
  obtain ⟨hwidth, hheight, -⟩ := h.setup
  rw [← npix_encodePost s, npix, npix, hwidth, hheight]

theorem Received.fitsDecode : fitsDecode u = true := by
  obtain ⟨-, -, hpix⟩ := (fitsEncode_iff s).mp h.fits
  obtain ⟨-, -, hparams⟩ := h.setup
  refine (fitsDecode_iff u).mpr ⟨h.keyFits, ?_⟩
  rw [h.npix_eq, hparams, encodePost_params]
  exact hpix

theorem Received.pixelBit_eq {p : Nat} (hp : p < 32 + 8 * s.mlen.toNat) :
    pixelBit u p = if flips (encodePost s) u p ≤ 1 then frameBit s p else !(frameBit s p) :=
  pixelBit_of_flips fun _ => lsb_encodePost h.room hp

theorem Received.pixelSplit_eq {p : Nat} (hp : p < 32 + 8 * s.mlen.toNat) :
    pixelSplit u p = (flips (encodePost s) u p == 1 || flips (encodePost s) u p == 2) :=
  pixelSplit_of_flips fun _ => lsb_encodePost h.room hp

/-- The header pixels spell BUILDHDR of the body length, and PARSEHDR gives it back. -/
theorem Received.headerLen_eq : headerLen u = 8 * s.mlen.toNat := by
  have hbits : (List.range 32).map (fun q => pixelBit u (0 + q)) = buildHdr (BitVec.ofNat 32 (8 * s.mlen.toNat)) := by
    refine List.map_congr_left fun q hq => ?_
    have hq := List.mem_range.mp hq
    have hlt : 31 - q < 32 := by omega
    rw [Nat.zero_add, h.pixelBit_eq (by omega), if_pos (h.header q hq), frameBit, if_pos hq, BitVec.getLsbD_ofNat,
      decide_eq_true hlt, Bool.true_and]
  rw [← parseHdr_region, hbits, parseHdr_buildHdr, BitVec.toNat_ofNat, Nat.mod_eq_of_lt (bodyBits_lt h.room)]

theorem Received.exec_decode : exec .decode u = .next (decodePost u (8 * s.mlen.toNat)) := by
  have hpos := h.nonempty
  exact exec_decode_ok h.fitsDecode h.headerLen_eq (by omega) (by omega) (h.npix_eq ▸ h.room)

/-- CORRECTED is the number of payload pixels with one or two flips (R17, R63). -/
theorem Received.corrected_toNat : (decodePost u (8 * s.mlen.toNat)).corrected.toNat =
    (List.range (32 + 8 * s.mlen.toNat)).countP
      fun p => flips (encodePost s) u p == 1 || flips (encodePost s) u p == 2 := by
  rw [decodePost_corrected_toNat (h.npix_eq ▸ h.room)]
  exact List.countP_congr fun p hp => by rw [h.pixelSplit_eq (List.mem_range.mp hp)]

/-- Where only pixel `p₀` has flips, and has two or three, CORRECTED tells the two cases apart (R63 d). -/
theorem Received.corrected_of_one_pixel {p₀ : Nat} (hp₀ : p₀ < 32 + 8 * s.mlen.toNat)
    (htwo : 2 ≤ flips (encodePost s) u p₀)
    (hother : ∀ p, p < 32 + 8 * s.mlen.toNat → p ≠ p₀ → flips (encodePost s) u p = 0) :
    (decodePost u (8 * s.mlen.toNat)).corrected.toNat = if flips (encodePost s) u p₀ = 2 then 1 else 0 := by
  rw [h.corrected_toNat, ← countP_range_single hp₀]
  refine List.countP_congr fun p hp => ?_
  simp only [Bool.or_eq_true, beq_iff_eq, Bool.and_eq_true, decide_eq_true_eq]
  by_cases hpp : p = p₀
  · subst hpp
    omega
  · have hzero := hother p (List.mem_range.mp hp) hpp
    omega

/-- A body bit is the cipher byte's, turned over where its pixel lost the vote. -/
theorem Received.bodyByte_getLsbD {i j : Nat} (hi : i < s.mlen.toNat) (hj : j < 8) :
    (bodyByte u i).getLsbD (7 - j) = if flips (encodePost s) u (32 + 8 * i + j) ≤ 1
      then (cipherByte s i).getLsbD (7 - j) else !((cipherByte s i).getLsbD (7 - j)) := by
  rw [Machine.bodyByte_getLsbD u i hj, h.pixelBit_eq (by omega), frameBit_body s i hj]

/-- A body byte whose eight pixels kept their votes arrives as the cipher byte. -/
theorem Received.bodyByte_eq {i : Nat} (hi : i < s.mlen.toNat)
    (hf : ∀ j, j < 8 → flips (encodePost s) u (32 + 8 * i + j) ≤ 1) : bodyByte u i = cipherByte s i :=
  byte_eq_of_getLsbD fun j hj => by rw [h.bodyByte_getLsbD hi hj, if_pos (hf j hj)]

/-- Where a body byte's pixels kept their votes, `OUT` gets the message byte XORed with both keys' (R75 a, b, e). -/
theorem Received.memRead_out {i : Nat} (hi : i < s.mlen.toNat)
    (hf : ∀ j, j < 8 → flips (encodePost s) u (32 + 8 * i + j) ≤ 1) :
    memRead (decodePost u (8 * s.mlen.toNat)) .out i = cipherByte s i ^^^ keyTerm u i := by
  rw [memRead_decodePost_out u hi, h.bodyByte_eq hi hf]

/-- A body byte one of whose pixels lost its vote arrives with that one bit inverted (R75 c). -/
theorem Received.bodyByte_inverted {i j₀ : Nat} (hi : i < s.mlen.toNat) (hj₀ : j₀ < 8)
    (hf : ∀ j, j < 8 → (flips (encodePost s) u (32 + 8 * i + j) ≤ 1 ↔ j ≠ j₀)) :
    bodyByte u i = cipherByte s i ^^^ BitVec.twoPow 8 (7 - j₀) := by
  refine byte_eq_of_getLsbD fun j hj => ?_
  rw [h.bodyByte_getLsbD hi hj, BitVec.getLsbD_xor, BitVec.getLsbD_twoPow]
  by_cases hjj : j = j₀
  · rw [if_neg (fun hle => (hf j hj).mp hle hjj)]
    subst hjj
    simp [show 7 - j < 8 by omega]
  · rw [if_pos ((hf j hj).mpr hjj), decide_eq_false (by omega : ¬(7 - j₀ = 7 - j)), Bool.and_false, Bool.xor_false]

end Received

/-- The laws of R75 start here: a successful ENCODE and a channel that leaves the header readable. -/
theorem received_of_encode {s t u : State} (h : exec .encode s = .next t) (hst : t.status = .ok)
    (hpos : 1 ≤ s.mlen.toNat) (hsetup : SameSetup t u) (hkey : u.klen.toNat ≤ u.params.keyBytes)
    (hheader : ∀ p, p < 32 → flips t u p ≤ 1) : t = encodePost s ∧ Received s u := by
  obtain ⟨hfit, hn, rfl⟩ := exec_encode_ok_inv h hst
  exact ⟨rfl, hfit, hn, hpos, hsetup, hkey, hheader⟩

/-- The encoder's key fits where the encoder's sizes are kept. -/
theorem keyFits_of_sameKey {s t u : State} (h : exec .encode s = .next t) (hst : t.status = .ok)
    (hsetup : SameSetup t u) (hkey : SameKey t u) : u.klen.toNat ≤ u.params.keyBytes := by
  obtain ⟨hfit, -, rfl⟩ := exec_encode_ok_inv h hst
  obtain ⟨-, hk, -⟩ := (fitsEncode_iff s).mp hfit
  obtain ⟨-, -, hparams⟩ := hsetup
  rwa [hkey.1, hparams, encodePost_klen, encodePost_params]

theorem keyTerm_eq_of_sameKey {s u : State} (h : SameKey (encodePost s) u) (i : Nat) : keyTerm u i = keyTerm s i :=
  (h.keyTerm_eq i).trans (keyTerm_encodePost s i)

/-- Settles O52: every vote is kept, so the cipher bytes arrive and the key cancels; one flip is a split pixel. -/
theorem singleFlipsAreCorrected : Obligations.SingleFlipsAreCorrected := by
  intro s t u h hst hpos hsetup hkey hflips
  obtain ⟨rfl, hr⟩ := received_of_encode h hst hpos hsetup (keyFits_of_sameKey h hst hsetup hkey)
    fun p hp => hflips p (by omega)
  refine ⟨_, hr.exec_decode, decodePost_status .., decodePost_olen_whole .., ?_, fun i hi => ?_⟩
  · rw [hr.corrected_toNat]
    refine List.countP_congr fun p hp => ?_
    have hle := hflips p (List.mem_range.mp hp)
    have htwo : (flips (encodePost s) u p == 2) = false := beq_false_of_ne (by omega)
    rw [htwo, Bool.or_false]
  · rw [hr.memRead_out hi fun j _ => hflips _ (by omega), keyTerm_eq_of_sameKey hkey, cipherByte_xor_keyTerm]

/-- Settles O55: as the payload is untouched, the cipher bytes arrive and nothing is counted, whatever the key. -/
theorem wrongKey : Obligations.WrongKey := by
  intro s t u h hst hpos hsetup hkey hpayload
  have hvote : ∀ p, p < 32 + 8 * s.mlen.toNat → flips t u p ≤ 1 := fun p hp => (hpayload p hp).le.trans (by decide)
  obtain ⟨rfl, hr⟩ := received_of_encode h hst hpos hsetup hkey fun p hp => hvote p (by omega)
  refine ⟨_, hr.exec_decode, decodePost_status .., decodePost_olen_whole .., BitVec.eq_of_toNat_eq ?_, fun i hi => ?_⟩
  · rw [hr.corrected_toNat]
    refine List.countP_eq_zero.mpr fun p hp => ?_
    rw [hpayload p (List.mem_range.mp hp)]
    decide
  · exact hr.memRead_out hi fun j _ => hvote _ (by omega)

/-- Settles O51: the law of any key, with the encoder's own key, whose bytes cancel. -/
theorem roundTrip : Obligations.RoundTrip := by
  intro s t u h hst hpos hsetup hkey hpayload
  obtain ⟨v, hexec, hok, holen, hcorrected, hout⟩ :=
    wrongKey s t u h hst hpos hsetup (keyFits_of_sameKey h hst hsetup hkey) hpayload
  refine ⟨v, hexec, hok, holen, hcorrected, fun i hi => ?_⟩
  obtain rfl := exec_encode_of_ok h hst
  rw [hout i hi, keyTerm_eq_of_sameKey hkey]
  exact cipherByte_xor_keyTerm s i

/-- Settles O53: the one pixel that lost its vote inverts its bit, and only a split vote is counted. -/
theorem twoFlipsAreSilent : Obligations.TwoFlipsAreSilent := by
  intro s t u p₀ h hst h32 hp₀ htwo hsetup hkey hother
  obtain ⟨rfl, hr⟩ := received_of_encode h hst (by omega) hsetup (keyFits_of_sameKey h hst hsetup hkey)
    fun p hp => (hother p (by omega) (by omega)).le.trans (by decide)
  have hvote : ∀ p, p < 32 + 8 * s.mlen.toNat → (flips (encodePost s) u p ≤ 1 ↔ p ≠ p₀) := fun p hp =>
    ⟨by rintro hle rfl; omega, fun hne => by rw [hother p hp hne]; decide⟩
  refine ⟨_, hr.exec_decode, decodePost_status .., decodePost_olen_whole .., BitVec.eq_of_toNat_eq ?_, fun i hi => ?_⟩
  · rw [hr.corrected_of_one_pixel hp₀ htwo hother]
    split <;> rfl
  · split
    next hbyte =>
      have hbody := hr.bodyByte_inverted hi (j₀ := (p₀ - 32) % 8) (by omega) fun j hj =>
        (hvote _ (by omega)).trans (not_congr (by omega))
      rw [memRead_decodePost_out u hi, hbody, keyTerm_eq_of_sameKey hkey, BitVec.xor_assoc,
        BitVec.xor_comm (BitVec.twoPow ..), ← BitVec.xor_assoc, cipherByte_xor_keyTerm]
    next hbyte =>
      rw [hr.memRead_out hi fun j _ => (hvote _ (by omega)).mpr (by omega), keyTerm_eq_of_sameKey hkey,
        cipherByte_xor_keyTerm]

end Sys2Proof.Machine

/-! # Failures and the end of a command (60_exceptions.md)

The order of failures (R80) is the laws of the single cases, `exec_encode_insufficient` and the like, with the capacity
counted in bits; what STATUS can hold is read off `exec_cases`. -/

namespace Sys2Proof.Machine

/-! ### The step without an access, and the entry of a failure (R81, R85) -/

/-- Settles O9: with no access pending the step is idle. -/
theorem idleStep : Obligations.IdleStep := fun _ => step_idle

/-- Settles O19: the registers of `raise F` are its definition, and it keeps the rest. -/
theorem failureEntry : Obligations.FailureEntry :=
  fun f s => ⟨rfl, raise_olen f s, raise_corrected f s, memRead_raise f s, raise_sameInputs f s⟩

/-! ### The effect of each command word (R71, R76) -/

theorem runCommand_encode (i : Instr) (s : State) : runCommand (Sys2Proof.encode i) s = exec i s :=
  runCommand_of_decode (decode_encode i) s

/-- R41's three command words are the only ones that are not illegal. -/
theorem runCommand_other {w : Word} (h1 : w ≠ 1#32) (h2 : w ≠ 2#32) (h3 : w ≠ 3#32) (s : State) :
    runCommand w s = .next (raise .illegalCommand s) :=
  runCommand_illegal (fun | .cipher => h1 | .encode => h2 | .decode => h3) s

/-! ### The order of failures (R80) -/

/-- Settles O38: one law of a command for each clause; a condition in bits of capacity is three times one in pixels. -/
theorem failurePriority : Obligations.FailurePriority := by
  intro w s
  have hcap := cap_eq s
  refine ⟨fun h1 h2 h3 => runCommand_other h1 h2 h3 s, ?_, ?_, ?_⟩
  · rintro rfl
    rw [show runCommand 1#32 s = exec .cipher s from runCommand_encode .cipher s]
    exact ⟨exec_cipher_badConfig, fun hfit => ⟨_, exec_cipher_ok hfit, cipherPost_status s⟩⟩
  · rintro rfl
    rw [show runCommand 2#32 s = exec .encode s from runCommand_encode .encode s]
    exact ⟨exec_encode_badConfig, fun hfit hc => exec_encode_insufficient hfit (by omega),
      fun hfit hc => ⟨_, exec_encode_ok hfit (by omega), encodePost_status s⟩⟩
  · rintro rfl
    rw [show runCommand 3#32 s = exec .decode s from runCommand_encode .decode s]
    obtain ⟨L, hL⟩ : ∃ L, headerLen s = L := ⟨_, rfl⟩
    rw [hL]
    exact ⟨exec_decode_badConfig, fun hfit hc => exec_decode_truncated hfit (by omega),
      fun hfit hc hbad => exec_decode_corrupt hfit (by omega) hL (by omega),
      fun hfit hc hpos h8 hroom =>
        ⟨_, exec_decode_ok hfit hL (by omega) h8 (by omega), decodePost_status s L⟩⟩

/-! ### Failures are precise (R82) -/

/-- Settles O40: the only way to a STATUS that is not OK is a `raise`. -/
theorem failuresArePrecise : Obligations.FailuresArePrecise := by
  intro w s t h hst
  obtain ⟨f, rfl⟩ := runCommand_of_not_ok h hst
  rfl

/-! ### What STATUS a command ends with (R77, R99) -/

/-- STATUS after a command: OK, or a failure that R77 lets the command raise. -/
theorem exec_status_cases {i : Instr} {s t : State} (h : exec i s = .next t) :
    t.status = .ok ∨ t.status = .failed .badConfig ∨ (t.status = .failed .insufficientCapacity ∧ i = .encode) ∨
      ((t.status = .failed .truncatedExtraction ∨ t.status = .failed .corruptHeader) ∧ i = .decode) := by
  rcases exec_cases h with ⟨-, -, rfl⟩ | ⟨-, -, -, rfl⟩ | ⟨L, -, -, -, -, -, -, rfl⟩ | ⟨f, rfl, hf⟩
  · exact .inl (cipherPost_status s)
  · exact .inl (encodePost_status s)
  · exact .inl (decodePost_status s L)
  · simpa using hf

theorem regRead_status_of_eq {t : State} {st : Status} (h : t.status = st) : regRead t .status = st.word :=
  congrArg Status.word h

theorem regRead_status_cipher {s t : State} (h : exec .cipher s = .next t) :
    regRead t .status = 0 ∨ regRead t .status = 6 := by
  rcases exec_status_cases h with hst | hst | ⟨-, hi⟩ | ⟨-, hi⟩
  · exact .inl (regRead_status_of_eq hst)
  · exact .inr (regRead_status_of_eq hst)
  · cases hi
  · cases hi

theorem regRead_status_encode {s t : State} (h : exec .encode s = .next t) :
    regRead t .status = 0 ∨ regRead t .status = 1 ∨ regRead t .status = 6 := by
  rcases exec_status_cases h with hst | hst | ⟨hst, -⟩ | ⟨-, hi⟩
  · exact .inl (regRead_status_of_eq hst)
  · exact .inr (.inr (regRead_status_of_eq hst))
  · exact .inr (.inl (regRead_status_of_eq hst))
  · cases hi

theorem regRead_status_decode {s t : State} (h : exec .decode s = .next t) :
    regRead t .status = 0 ∨ regRead t .status = 2 ∨ regRead t .status = 3 ∨ regRead t .status = 6 := by
  rcases exec_status_cases h with hst | hst | ⟨-, hi⟩ | ⟨hst | hst, -⟩
  · exact .inl (regRead_status_of_eq hst)
  · exact .inr (.inr (.inr (regRead_status_of_eq hst)))
  · cases hi
  · exact .inr (.inr (.inl (regRead_status_of_eq hst)))
  · exact .inr (.inl (regRead_status_of_eq hst))

/-- Settles O41: every word has a next state, and each command's STATUS is one R77 lists for it. -/
theorem commandsAlwaysEnd : Obligations.CommandsAlwaysEnd := by
  intro w s
  obtain ⟨t, ht⟩ := runCommand_next w s
  refine ⟨t, ht, ?_, ?_, ?_, fun h1 h2 h3 => ?_⟩
  · rintro rfl
    exact regRead_status_cipher ((runCommand_encode .cipher s).symm.trans ht)
  · rintro rfl
    exact regRead_status_encode ((runCommand_encode .encode s).symm.trans ht)
  · rintro rfl
    exact regRead_status_decode ((runCommand_encode .decode s).symm.trans ht)
  · obtain rfl := Host.Outcome.next.inj (ht.symm.trans (runCommand_other h1 h2 h3 s))
    exact regRead_status_of_eq (raise_status .illegalCommand s)

end Sys2Proof.Machine

/-! # Reset and what software must respect (70_reset_and_hazards.md)

An access is served on the state without it, so a reset is `platformReset` there, and the laws of State.lean say what it
leaves. The two hazards are read off the laws of the single cases of ENCODE and DECODE: what an ENCODE of nothing leaves
in the header, and how many message bytes a number of pixels has room for. -/

namespace Sys2Proof.Machine

/-! ### The platform's reset (R89) -/

theorem serve_reset (s : State) : serve .reset s = .next (platformReset s) := rfl

/-- Every register reads 0 after a reset, CMD and STATUS included (R24, R89). -/
@[simp] theorem regRead_platformReset (s : State) (r : Reg) : regRead (platformReset s) r = 0 := by
  cases r <;> rfl

/-- No byte has been written since a reset, so each one is the free value of the new draw (R24, R89). -/
@[simp] theorem memRead_platformReset (s : State) (sp : Space) (a : Nat) :
    memRead (platformReset s) sp a = Config.unwrittenByte (s.draw + 1) sp a := by
  rw [memRead, platformReset_mem, platformReset_draw, Memory.get?, Option.getD_none]

/-- Settles O2: the step is `platformReset`, whose registers and bytes are read by a law each. -/
theorem platformResetStep : Obligations.PlatformReset := by
  intro s rest hp
  refine ⟨platformReset { s with pending := rest }, (step_serve hp).trans (serve_reset _),
    regRead_platformReset _, platformReset_status _, memRead_platformReset _, platformReset_draw _,
    platformReset_params _, platformReset_pending _, platformReset_replies _⟩

/-! ### The empty message (R95) -/

/-- DECODE reads nothing but the key and the buffer, whose extents ENCODE checks too (R39). -/
theorem fitsDecode_of_fitsEncode {s : State} (h : fitsEncode s = true) : fitsDecode s = true := by
  obtain ⟨-, hkey, hpix⟩ := (fitsEncode_iff s).mp h
  exact (fitsDecode_iff s).mpr ⟨hkey, hpix⟩

theorem fitsDecode_encodePost (s : State) : fitsDecode (encodePost s) = fitsDecode s :=
  fitsDecode_congr (encodePost_params s) (npix_encodePost s) (encodePost_klen s)

/-- The header of an empty message is 32 zeros, the length 0 (R58, R74). -/
theorem frameBit_header_of_empty {s : State} (hm : s.mlen = 0) {p : Nat} (hp : p < 32) : frameBit s p = false := by
  rw [frameBit, if_pos hp, hm]
  exact Nat.zero_testBit _

/-- Settles O49: the 32 header pixels hold zeros only, which DECODE rejects (`zeroedHeader`). -/
theorem emptyMessage : Obligations.EmptyMessage := by
  intro s hfit hm hn
  have hroom : 32 + 8 * s.mlen.toNat ≤ npix s := by simpa [hm] using hn
  have hfit' : fitsDecode (encodePost s) = true := (fitsDecode_encodePost s).trans (fitsDecode_of_fitsEncode hfit)
  have hzero : ∀ p ch, p < 32 → ch < 3 → lsb (encodePost s) p ch = false := fun p ch hp hch => by
    rw [lsb_encodePost hroom (by omega) hch, frameBit_header_of_empty hm hp]
  exact ⟨_, exec_encode_ok hfit hroom, encodePost_status s, zeroedHeader _ hfit' (by rwa [npix_encodePost]) hzero⟩

/-! ### The largest message (R98) -/

/-- The message bytes a number of pixels has room for beside the header (R72 corner case b). -/
theorem room_iff {m n : Nat} : 32 + 8 * m ≤ n ↔ 32 ≤ n ∧ m ≤ (n - 32) / 8 := by omega

/-- An ENCODE with admissible extents succeeds exactly when the Frame has a pixel for each bit (R72). -/
theorem exec_encode_status_ok_iff {s t : State} (hfit : fitsEncode s = true) (h : exec .encode s = .next t) :
    t.status = .ok ↔ 32 + 8 * s.mlen.toNat ≤ npix s := by
  refine ⟨fun hst => ?_, fun hn => ?_⟩
  · obtain ⟨-, hn, -⟩ := exec_encode_ok_inv h hst
    exact hn
  · rw [exec_unique h (exec_encode_ok hfit hn), encodePost_status]

/-- A failed DECODE leaves OLEN 0, and one that succeeds has found room for the body its header announces (R68, R81). -/
theorem exec_decode_olen_le {s t : State} (h : exec .decode s = .next t) : t.olen.toNat ≤ (npix s - 32) / 8 := by
  by_cases hst : t.status = .ok
  · obtain ⟨L, -, hroom, rfl⟩ := exec_decode_of_ok h hst
    rw [decodePost_olen_toNat hroom]
    omega
  · obtain ⟨f, rfl⟩ := exec_of_not_ok h hst
    exact Nat.zero_le _

/-- Settles O50: room in pixels is `room_iff`, and DECODE's bound is its own law. -/
theorem largestMessage : Obligations.LargestMessage := by
  refine ⟨fun s hfit => ?_, fun _ _ => exec_decode_olen_le⟩
  obtain ⟨t, ht⟩ := exec_next .encode s
  exact ⟨t, ht, (exec_encode_status_ok_iff hfit ht).trans room_iff⟩

end Sys2Proof.Machine
